-- ==== Sys2Proof/Word.lean ====
section
/-! DEFINITION. The block's few sizes (00_scope.md R5): line levels, the 4-bit Address, the 8-bit pattern,
the four input lines and the eight output lines. -/

namespace Sys2Proof

/-- A line level: `true` is high (bit 1), `false` is low (bit 0) (00_scope.md section 5). -/
abbrev Level := Bool

/-- The Address, an "unsigned value in [0,15]" (10_state.md R14): 4 bits, so no other value can be written down. -/
abbrev Addr := BitVec 4

/-- An 8-bit pattern of format PAT8, bit `i` for output line `o_i` (30_encoding.md R53). -/
abbrev Pattern := BitVec 8

/-- One byte of a sequencer word (Decode.lean). -/
abbrev Byte := BitVec 8

/-- An input line `a0` to `a3`, by its index. -/
abbrev InLine := Fin 4

/-- An output line `o0` to `o7`, by its index. -/
abbrev OutLine := Fin 8

end Sys2Proof
end

