-- ==== Sys2Proof/Syntax.lean ====
section
/-! DEFINITION. The 20 rows of the opcode table: the four SEQ rows and the sixteen ADDR4 rows (30_encoding.md R55).
No row has an operand of its own. -/

namespace Sys2Proof

/-- One constructor per row of the opcode table. -/
inductive Instr where
  /-- One iteration of the control loop (43_control_loop.md R110). -/
  | iter
  /-- Step 1: read the four input lines and compose the Address (40_address_sampler.md R70). -/
  | sample
  /-- Step 2: read the ROM entry of the Address (41_program_table.md R80). -/
  | lookup
  /-- Step 3: set the eight output lines from the pattern (42_output_driver.md R100). -/
  | drive
  /-- Address 0 (41_program_table.md R81). -/
  | rom0
  /-- Address 1 (41_program_table.md R82). -/
  | rom1
  /-- Address 2 (41_program_table.md R83). -/
  | rom2
  /-- Address 3 (41_program_table.md R84). -/
  | rom3
  /-- Address 4 (41_program_table.md R85). -/
  | rom4
  /-- Address 5 (41_program_table.md R86). -/
  | rom5
  /-- Address 6 (41_program_table.md R87). -/
  | rom6
  /-- Address 7 (41_program_table.md R88). -/
  | rom7
  /-- Address 8 (41_program_table.md R89). -/
  | rom8
  /-- Address 9 (41_program_table.md R90). -/
  | rom9
  /-- Address 10 (41_program_table.md R91). -/
  | rom10
  /-- Address 11 (41_program_table.md R92). -/
  | rom11
  /-- Address 12 (41_program_table.md R93). -/
  | rom12
  /-- Address 13 (41_program_table.md R94). -/
  | rom13
  /-- Address 14 (41_program_table.md R95). -/
  | rom14
  /-- Address 15 (41_program_table.md R96). -/
  | rom15
deriving DecidableEq, Repr, Inhabited

end Sys2Proof
end

