-- ==== Sys2Proof/WellFormed.lean ====
section
/-! DEFINITION. Well-formedness. A row of the opcode table has no operand, so every instruction is well formed
(30_encoding.md R56: no code is illegal). What can be ill formed is a table literal in the spec's notation
(30_encoding.md R59: sixteen literals, index 0 first) and a sequencer word. -/

namespace Sys2Proof

/-- No row has an operand field that could hold an illegal value (30_encoding.md R56). -/
def Instr.wf : Instr → Bool
  | .iter | .sample | .lookup | .drive => true
  | .rom0 | .rom1 | .rom2 | .rom3 | .rom4 | .rom5 | .rom6 | .rom7 => true
  | .rom8 | .rom9 | .rom10 | .rom11 | .rom12 | .rom13 | .rom14 | .rom15 => true

/-- A table has exactly 16 entries (41_program_table.md R97). -/
def tableLengthOk (t : List Pattern) : Bool := t.length == 16

/-- A table holds the eight literals the source prints (41_program_table.md R82, R90 to R96). -/
def tableLiteralsOk (t : List Pattern) : Bool :=
  t[1]? == some 0b10110110#8 && t[9]? == some 0b11110000#8 && (t.drop 10).all (· == 0b00000000#8)

/-- A table literal of the device: sixteen entries, the printed ones at their indices. -/
def tableWf (t : List Pattern) : Bool := tableLengthOk t && tableLiteralsOk t

/-- A sequencer word names a row when its upper four bits are at most 4 (log 2). -/
def wordWf (b : Byte) : Bool := decide (b.toNat < 0x50)

end Sys2Proof
end

