-- ==== Sys2Proof/Decode.lean ====
section
/-! DEFINITION. The decoder and the encoder, both read off one list of rows.

The hardware has one code only, the 4-bit Address of format ADDR4, whose sixteen values select the sixteen ROM rows
(30_encoding.md R51, R55); `a3 a2 a1 a0` are bits 3 to 0. The four SEQ rows are selected by NO bits: the table gives
them the word `aaaa` under mask 0. So that every row can be named by a byte, the model puts the place in the iteration
above the four code bits: upper four bits 0 for an ADDR4 code by itself, 1, 2, 3 for the table's `step` 1, 2, 3 (SAMPLE,
LOOKUP, DRIVE), 4 for the three in sequence (ITER). DESIGN CHOICE (log 2): these upper bits are the model's name for
where the loop is, and no bits of the hardware. -/

namespace Sys2Proof

/-- A row: the instruction, the bits that select it, and their values. -/
structure Row where
  instr : Instr
  mask : Byte
  value : Byte
deriving DecidableEq, Repr

/-- The ADDR4 rows of the opcode table, codes 0 to 7. -/
def addr4RowsLow : List Row :=
  [⟨.rom0, 0xFF#8, 0x00#8⟩, ⟨.rom1, 0xFF#8, 0x01#8⟩, ⟨.rom2, 0xFF#8, 0x02#8⟩, ⟨.rom3, 0xFF#8, 0x03#8⟩,
   ⟨.rom4, 0xFF#8, 0x04#8⟩, ⟨.rom5, 0xFF#8, 0x05#8⟩, ⟨.rom6, 0xFF#8, 0x06#8⟩, ⟨.rom7, 0xFF#8, 0x07#8⟩]

/-- The ADDR4 rows of the opcode table, codes 8 to 15. -/
def addr4RowsHigh : List Row :=
  [⟨.rom8, 0xFF#8, 0x08#8⟩, ⟨.rom9, 0xFF#8, 0x09#8⟩, ⟨.rom10, 0xFF#8, 0x0A#8⟩, ⟨.rom11, 0xFF#8, 0x0B#8⟩,
   ⟨.rom12, 0xFF#8, 0x0C#8⟩, ⟨.rom13, 0xFF#8, 0x0D#8⟩, ⟨.rom14, 0xFF#8, 0x0E#8⟩, ⟨.rom15, 0xFF#8, 0x0F#8⟩]

/-- The SEQ rows: the low four bits are the table's `aaaa`, any value. -/
def seqRows : List Row :=
  [⟨.sample, 0xF0#8, 0x10#8⟩, ⟨.lookup, 0xF0#8, 0x20#8⟩, ⟨.drive, 0xF0#8, 0x30#8⟩, ⟨.iter, 0xF0#8, 0x40#8⟩]

/-- All twenty rows. -/
def rows : List Row := addr4RowsLow ++ addr4RowsHigh ++ seqRows

/-- Whether a byte has the bits that select a row. -/
def Row.selects (r : Row) (b : Byte) : Bool := b &&& r.mask == r.value

/-- Why a list of bytes is no instruction. -/
inductive Reject where
  /-- There is no byte. -/
  | noBytes
  /-- The upper four bits name no place in the iteration. -/
  | noRow (b : Byte)
deriving DecidableEq, Repr

/-- What the decoder answers: an instruction and the bytes after it, or a named rejection. -/
inductive Decoded where
  | ok (i : Instr) (rest : List Byte)
  | reject (why : Reject)
deriving DecidableEq, Repr

/-- The row a byte selects. -/
def decodeByte (b : Byte) : Option Instr := (rows.find? (·.selects b)).map Row.instr

/-- The decoder, total on any bytes. -/
def decode : List Byte → Decoded
  | [] => .reject .noBytes
  | b :: rest =>
    match decodeByte b with
    | some i => .ok i rest
    | none => .reject (.noRow b)

/-- The instruction of an Address (30_encoding.md R55): the map is one to one and total. -/
def rowOfAddr (a : Addr) : Option Instr := decodeByte (a.zeroExtend 8)

/-- The encoder: the byte of a row, with the SEQ rows' `aaaa` at the given value (ignored by the ADDR4 rows). -/
def encodeWith (aaaa : Addr) (i : Instr) : List Byte :=
  match rows.find? (fun r => r.instr == i) with
  | some r => [r.value ||| (aaaa.zeroExtend 8 &&& ~~~r.mask)]
  | none => []

/-- The encoder, with `aaaa` at zero. -/
def encode (i : Instr) : List Byte := encodeWith 0#4 i

/-- The instruction the decoder reads from a table word: one byte, the table's four bits in its low half. -/
def decodeTableWord (_nbits w : Nat) : Option Instr :=
  if w < 256 then
    match decode [BitVec.ofNat 8 w] with
    | .ok i [] => some i
    | _ => none
  else none

end Sys2Proof
end

