-- ==== Sys2Proof/Config.lean ====
section
/-! DEFINITION. The open parameters of the spec (00_scope.md R6), the environment's moves and turns
(43_control_loop.md R120), and the free values: constants without a body, about which nothing can be proved. -/

namespace Sys2Proof

/-- What one input line presents: a level driven from outside, or nothing, in which case it reads the pull level
(40_address_sampler.md R75). -/
inductive Source where
  | driven (level : Level)
  | unconnected
deriving DecidableEq, Repr, Inhabited

/-- The four input lines under the source's names (30_encoding.md R51). -/
structure InputLines where
  a0 : Source
  a1 : Source
  a2 : Source
  a3 : Source
deriving DecidableEq, Repr, Inhabited

/-- One move of the environment between two line operations (20_memory.md R44, 43_control_loop.md R120). -/
inductive EnvMove where
  /-- Drive an input line to a level, or disconnect it. -/
  | setInput (line : InLine) (source : Source)
  /-- Force a level onto an output pin (42_output_driver.md R103, 70_reset_and_hazards.md R173). -/
  | forceOutput (line : OutLine) (level : Level)
  /-- External reset or power loss, one move (92_eei_decisions.md D21). -/
  | reset
deriving DecidableEq, Repr, Inhabited

/-- The environment's turn at one attempted line operation. -/
structure Turn where
  /-- What the environment does before the operation, in order. -/
  moves : List EnvMove
  /-- Whether the operation answers `ok` (60_exceptions.md R135). -/
  ok : Bool
  /-- The number of the order in which the operation that starts here goes through its lines
  (93_implementation_defined.md U7, U8); only an operation's first turn is asked for it. -/
  order : Nat
deriving DecidableEq, Repr, Inhabited

/-- `FAIL_POLICY` (60_exceptions.md R136). -/
inductive FailPolicy where
  | abort
  | hardened
deriving DecidableEq, Repr, Inhabited

/-- The open parameters of 00_scope.md R6, constant for the life of a device. The eight patterns are the ROM entries
the source does not print (92_eei_decisions.md D2). -/
structure Params where
  t0 : Pattern
  t2 : Pattern
  t3 : Pattern
  t4 : Pattern
  t5 : Pattern
  t6 : Pattern
  t7 : Pattern
  t8 : Pattern
  /-- `OUT_RESET`: the lines whose level a platform fixes at reset (bit set), the others having no value. -/
  outResetFixed : Pattern
  /-- `OUT_RESET`: the level of each line so fixed; the other bits mean nothing. -/
  outResetLevel : Pattern
  /-- `PULL_LEVEL`. -/
  pullLevel : Level
  failPolicy : FailPolicy
  /-- `RETRY_MAX`: re-attempts after the first failure (92_eei_decisions.md D8). -/
  retryMax : Nat
  /-- `LINES_INFALLIBLE` (92_eei_decisions.md D17). -/
  linesInfallible : Bool
deriving DecidableEq, Repr, Inhabited

namespace Config

/-- The device's ROM entry 0; the source prints no literal (41_program_table.md R81, log 13). -/
opaque t0 : Pattern
/-- The device's ROM entry 2 (41_program_table.md R83). -/
opaque t2 : Pattern
/-- The device's ROM entry 3 (41_program_table.md R84). -/
opaque t3 : Pattern
/-- The device's ROM entry 4 (41_program_table.md R85). -/
opaque t4 : Pattern
/-- The device's ROM entry 5 (41_program_table.md R86). -/
opaque t5 : Pattern
/-- The device's ROM entry 6 (41_program_table.md R87). -/
opaque t6 : Pattern
/-- The device's ROM entry 7 (41_program_table.md R88). -/
opaque t7 : Pattern
/-- The device's ROM entry 8 (41_program_table.md R89). -/
opaque t8 : Pattern
/-- The device's pull level (40_address_sampler.md R75). -/
opaque pullLevel : Level
/-- The device's retry bound (60_exceptions.md R138). -/
opaque retryMax : Nat

/-- The device of the spec: the parameters it leaves open are constants without a body; `FAIL_POLICY`, `OUT_RESET` and
`LINES_INFALLIBLE` stand at the defaults the spec gives them (92_eei_decisions.md D3, D7, D17; log 14). -/
def device : Params :=
  { t0 := t0, t2 := t2, t3 := t3, t4 := t4, t5 := t5, t6 := t6, t7 := t7, t8 := t8
    outResetFixed := 0#8, outResetLevel := 0#8
    pullLevel := pullLevel, failPolicy := .abort, retryMax := retryMax, linesInfallible := false }

/-- FREE VALUE: the level of one output line that has no defined value (93_implementation_defined.md U4; log 6). -/
opaque freeLevel : Nat → Level
/-- FREE VALUE: the levels of all eight output lines when none has a defined value (93_implementation_defined.md U1,
U3; log 5, 7). -/
opaque freePattern : Nat → Pattern
/-- FREE VALUE: a turn of the environment beyond those that State lists (43_control_loop.md R120; log 9). -/
opaque freeTurn : Nat → Turn
/-- FREE VALUE: what the input lines present at power-on (10_state.md R29; log 15). -/
opaque inputsAtPowerOn : InputLines

end Config

end Sys2Proof
end

