-- ==== Sys2Proof/Machine/State.lean ====
section
/-! DEFINITION. The state: the ROM (with the other constants of the device), the output lines, the run state
(10_state.md R10), where the loop is in the iteration (R14, R15, R18), the environment's part, and the model's own
record and counter. -/

namespace Sys2Proof.Machine

/-- A failure cause (60_exceptions.md R130, R134): the symbolic pair of kind and line, without a number. -/
inductive Cause where
  /-- "an input line's state could not be determined" (60_exceptions.md R131). -/
  | inputReadFailure (line : InLine)
  /-- "an output line's state could not be set" (60_exceptions.md R132). -/
  | outputWriteFailure (line : OutLine)
  /-- A lookup with an index outside 0..15 (60_exceptions.md R133). -/
  | invariantFailure
deriving DecidableEq, Repr

/-- The run state (10_state.md R13): running, or halted with the first recorded cause and the later ones
(60_exceptions.md R147). -/
inductive Run where
  | running
  | halted (first : Cause) (later : List Cause)
deriving DecidableEq, Repr

/-- Where the loop is (10_state.md R18). The Address exists only from SAMPLE to LOOKUP (R14) and the pattern only from
LOOKUP to DRIVE (R15), so each stands inside its phase. `iter` is the top of the loop when a step is to be a whole
iteration, `sample` when a step is to be one operation (log 1, 3). -/
inductive Phase where
  | iter
  | sample
  | lookup (addr : Addr)
  | drive (pattern : Pattern)
deriving DecidableEq, Repr

/-- What an observer of the block sees, one event at a time (43_control_loop.md R120; log 10). -/
inductive Obs where
  /-- A move of the environment. -/
  | env (move : EnvMove)
  /-- One `InRead`, with its answer: a level, or `none` for `fail`. -/
  | read (line : InLine) (answer : Option Level)
  /-- The ROM read of an iteration. -/
  | rom (addr : Addr) (pattern : Pattern)
  /-- One `OutWrite`, its answer, and the output lines after it: levels, and which of them are defined. -/
  | write (line : OutLine) (level : Level) (ok : Bool) (out : Pattern) (outDefined : Pattern)
deriving DecidableEq, Repr

/-- The whole state. -/
structure State where
  /-- The constants of the device: the ROM's open entries and the other parameters (00_scope.md R6, 10_state.md R11). -/
  params : Params
  /-- `OUT`: bit `i` is the level of line `o_i` (10_state.md R12). A line whose mark in `outDefined` is clear has no
  defined value: its bit here is a free value that stands for any level. -/
  out : Pattern
  /-- Bit `i` is set when `OUT[i]` holds a defined value (10_state.md R26). -/
  outDefined : Pattern
  /-- `RUN` (10_state.md R13). -/
  run : Run
  /-- Where the loop is (10_state.md R18). -/
  phase : Phase
  /-- The environment's input lines, no state of the device (10_state.md R16). -/
  inputs : InputLines
  /-- The environment's turns to come; beyond them every turn is a free value (log 9). -/
  script : List Turn
  /-- The model's own: how many free values have been drawn. -/
  draws : Nat
  /-- The model's own: the observer's record, oldest event first. No operation reads it. -/
  trace : List Obs
deriving DecidableEq, Repr

/-- Why the machine stops. -/
inductive Fault where
  /-- Raised by any instruction, and by `step`, in a state whose run state is `Halted`: "the block performs no line
  operation and changes no state; only a reset leaves Halted" (60_exceptions.md R142). SAFE: a halted run is never a
  completed one. -/
  | halted (cause : Cause)
deriving DecidableEq, Repr

/-- Why an instruction has no meaning where it stands. -/
inductive Refusal where
  /-- Raised by `exec` for an instruction the model gives no meaning yet (none). SAFE. -/
  | notModelled (mnemonic : String)
  /-- Raised by LOOKUP where no Address is in flight and by DRIVE where no pattern is (41_program_table.md R80 and
  42_output_driver.md R100 take the operand from the operation before). SAFE: no step reaches it. -/
  | noOperand
  /-- Raised by `step` if the sequencer word named no row. SAFE: no step reaches it. -/
  | noRow
deriving DecidableEq, Repr

/-- The machine right after reset (70_reset_and_hazards.md R162): running, at step (1) of the first iteration, no output
line defined; the environment's part is free (log 5, 15). -/
def State.reset : State :=
  { params := Config.device
    out := Config.freePattern 0
    outDefined := 0#8
    run := .running
    phase := .sample
    inputs := Config.inputsAtPowerOn
    script := []
    draws := 1
    trace := [] }

end Sys2Proof.Machine
end

