-- ==== Sys2Proof/Machine/Operands.lean ====
section
/-! DEFINITION. The two formats of the block and its orders: how line levels form an Address (ADDR4), how a pattern's bits
go to lines (PAT8), the ROM's contents, and the numbered orders in which an operation goes through its lines. -/

namespace Sys2Proof.Machine

/-- The level at one bit of a word of lines. -/
def bitOf {n : Nat} (v : BitVec n) (i : Fin n) : Level := v.getLsbD i.val

/-- A word of lines with one line set to a level; no other line changes ("independently settable", 20_memory.md R39). -/
def setBit (v : Pattern) (i : OutLine) (b : Level) : Pattern :=
  (v &&& ~~~(1#8 <<< i.val)) ||| ((BitVec.ofBool b).zeroExtend 8 <<< i.val)

/-- One read bit at its line's weight (30_encoding.md R51: weights 1, 2, 4, 8). -/
def weighted (i : InLine) (b : Level) : Addr := (BitVec.ofBool b).zeroExtend 4 <<< i.val

/-- The Address of four levels, the bitwise OR of the weighted bits (30_encoding.md R52, 40_address_sampler.md R70). -/
def composeAddress (b3 b2 b1 b0 : Level) : Addr :=
  weighted 3 b3 ||| weighted 2 b2 ||| weighted 1 b1 ||| weighted 0 b0

/-- What an input line presents. -/
def inputSource (lines : InputLines) : InLine → Source
  | 0 => lines.a0
  | 1 => lines.a1
  | 2 => lines.a2
  | 3 => lines.a3

/-- The input lines with one of them presenting something else. -/
def setInputSource (lines : InputLines) (i : InLine) (src : Source) : InputLines :=
  match i with
  | 0 => { lines with a0 := src }
  | 1 => { lines with a1 := src }
  | 2 => { lines with a2 := src }
  | 3 => { lines with a3 := src }

/-- The level a line reads: what drives it, or the pull level of an unconnected line (40_address_sampler.md R75). -/
def sourceLevel (pull : Level) : Source → Level
  | .driven b => b
  | .unconnected => pull

/-- The level input line `a_i` has now. -/
def inputLevel (s : State) (i : InLine) : Level := sourceLevel s.params.pullLevel (inputSource s.inputs i)

/-- The Address the input lines hold now. -/
def presentedAddress (s : State) : Addr :=
  composeAddress (inputLevel s 3) (inputLevel s 2) (inputLevel s 1) (inputLevel s 0)

/-- An observer's view of output line `o_i`: its level, or nothing where it has no defined value
(43_control_loop.md R120, 92_eei_decisions.md D25). -/
def observe (s : State) (i : OutLine) : Option Level :=
  if bitOf s.outDefined i then some (bitOf s.out i) else none

/-- The ROM's contents (41_program_table.md R81 to R96); no entry outside 0..15 (R97). -/
def romEntry (p : Params) : Nat → Option Pattern
  | 0 => some p.t0
  | 1 => some 0b10110110#8
  | 2 => some p.t2
  | 3 => some p.t3
  | 4 => some p.t4
  | 5 => some p.t5
  | 6 => some p.t6
  | 7 => some p.t7
  | 8 => some p.t8
  | 9 => some 0b11110000#8
  | 10 => some 0b00000000#8
  | 11 => some 0b00000000#8
  | 12 => some 0b00000000#8
  | 13 => some 0b00000000#8
  | 14 => some 0b00000000#8
  | 15 => some 0b00000000#8
  | _ => none

/-- `T[a]`: the 16 entries as a total function of the Address (10_state.md R11). -/
def table (p : Params) (a : Addr) : Pattern := (romEntry p a.toNat).getD 0#8

/-- The table as the spec writes it, index 0 first (30_encoding.md R59). -/
def tableList (p : Params) : List Pattern :=
  [table p 0#4, table p 1#4, table p 2#4, table p 3#4, table p 4#4, table p 5#4, table p 6#4, table p 7#4] ++
  [table p 8#4, table p 9#4, table p 10#4, table p 11#4, table p 12#4, table p 13#4, table p 14#4, table p 15#4]

/-- A list with an element put in at a place. -/
def insertAt {α : Type} : Nat → α → List α → List α
  | 0, x, l => x :: l
  | _ + 1, x, [] => [x]
  | n + 1, x, y :: l => y :: insertAt n x l

/-- The order of a list with a given number; every order has a number (93_implementation_defined.md U7, U8). -/
def permute {α : Type} : Nat → List α → List α
  | _, [] => []
  | k, x :: l => insertAt (k % (l.length + 1)) x (permute (k / (l.length + 1)) l)

/-- The four input lines. -/
def inLines : List InLine := [0, 1, 2, 3]

/-- The eight output lines. -/
def outLines : List OutLine := [0, 1, 2, 3, 4, 5, 6, 7]

end Sys2Proof.Machine
end

