-- ==== Sys2Proof/Machine/Flags.lean ====
section
/-! DEFINITION. The block has no flags or condition codes: no operation produces a carry, zero, sign or overflow indication
(10_state.md R19). The one computation of that kind is the mark the spec keeps beside each output line, whether it holds a
defined value (10_state.md R12, R26). -/

namespace Sys2Proof.Machine

/-- The line now holds a defined value (a successful write, 10_state.md R12). -/
def markDefined (marks : Pattern) (i : OutLine) : Pattern := setBit marks i true

/-- The line now holds no defined value (a failed write, 42_output_driver.md R104; a level forced from outside, log 8). -/
def markUndefined (marks : Pattern) (i : OutLine) : Pattern := setBit marks i false

/-- Every line defined. -/
def allDefined : Pattern := 0xFF#8

/-- No line defined. -/
def noneDefined : Pattern := 0x00#8

end Sys2Proof.Machine
end

