-- ==== Sys2Proof/Machine/Ops.lean ====
section
/-! DEFINITION. The shared operations: the environment's turns, the device reset, one `InRead` and one `OutWrite` with their
retries, the three steps of an iteration, what a failure does under either policy, and the halted machine. -/

namespace Sys2Proof.Machine

/-- The state with one more event in the observer's record. -/
def record (e : Obs) (s : State) : State := { s with trace := s.trace ++ [e] }

/-! ### The environment -/

/-- The environment's next turn: the first of the script, or a free value when the script is empty. -/
def nextTurn (s : State) : Turn :=
  match s.script with
  | t :: _ => t
  | [] => Config.freeTurn s.draws

/-- The state once that turn has been taken. -/
def takeTurn (s : State) : State :=
  match s.script with
  | _ :: ts => { s with script := ts }
  | [] => { s with draws := s.draws + 1 }

/-- Reset of the device (70_reset_and_hazards.md R160 to R162): running, at the first step of the first iteration, no
output line defined but those a platform fixes; the ROM and the parameters stay (10_state.md R25). The environment and
the observer are no part of the device and go on. -/
def deviceReset (s : State) : State :=
  { s with
    out := (s.params.outResetLevel &&& s.params.outResetFixed) |||
      (Config.freePattern s.draws &&& ~~~s.params.outResetFixed)
    outDefined := s.params.outResetFixed
    run := .running
    phase := .sample
    draws := s.draws + 1 }

/-- What a move of the environment does (43_control_loop.md R120). A level forced onto an output pin "lasts at most until
the next DRIVE writes that line" (70_reset_and_hazards.md R173), so the line has no defined value until then (log 8). -/
def moveEffect (m : EnvMove) (s : State) : State :=
  match m with
  | .setInput i src => { s with inputs := setInputSource s.inputs i src }
  | .forceOutput i b => { s with out := setBit s.out i b, outDefined := markUndefined s.outDefined i }
  | .reset => deviceReset s

/-- The environment's moves before a line operation, in order. -/
def applyMoves : List EnvMove → State → State
  | [], s => s
  | m :: ms, s => applyMoves ms (moveEffect m (record (.env m) s))

/-- Whether the moves hold a reset. -/
def hasReset (ms : List EnvMove) : Bool := ms.any (· == .reset)

/-! ### One line operation -/

/-- How a line operation, or a sequence of them, ends: with a value, with a failure, or cut short by a reset
(70_reset_and_hazards.md R160: at any time). -/
inductive LineResult (α : Type) where
  | ok (value : α) (s : State)
  | failed (cause : Cause) (s : State)
  | reset (s : State)
deriving Repr

/-- One attempt of a line operation: the environment moves, and then, unless it reset the device, decides the answer
(60_exceptions.md R135; under `LINES_INFALLIBLE` no operation fails). -/
def attempt {α : Type} (act : Bool → State → LineResult α) (s : State) : LineResult α :=
  let t := nextTurn s
  let s' := applyMoves t.moves (takeTurn s)
  if hasReset t.moves then .reset s' else act (t.ok || s'.params.linesInfallible) s'

/-- The answer of one `InRead(i)` (20_memory.md R38): the level at this instant, or `fail`, for which no value may stand. -/
def readAnswer (i : InLine) (ok : Bool) (s : State) : LineResult Level :=
  if ok then .ok (inputLevel s i) (record (.read i (some (inputLevel s i))) s)
  else .failed (.inputReadFailure i) (record (.read i none) s)

/-- The effect of one successful `OutWrite(i, b)`: `OUT[i] = b` (20_memory.md R39). -/
def writeDone (i : OutLine) (b : Level) (s : State) : State :=
  let s' := { s with out := setBit s.out i b, outDefined := markDefined s.outDefined i }
  record (.write i b true s'.out s'.outDefined) s'

/-- The effect of one failed `OutWrite(i, b)`: `OUT[i]` has no defined value (42_output_driver.md R104). -/
def writeLost (i : OutLine) (b : Level) (s : State) : State :=
  let s' := { s with
    out := setBit s.out i (Config.freeLevel s.draws)
    outDefined := markUndefined s.outDefined i
    draws := s.draws + 1 }
  record (.write i b false s'.out s'.outDefined) s'

/-- The answer of one `OutWrite(i, b)` (20_memory.md R39). -/
def writeAnswer (i : OutLine) (b : Level) (ok : Bool) (s : State) : LineResult Unit :=
  if ok then .ok () (writeDone i b s) else .failed (.outputWriteFailure i) (writeLost i b s)

/-- A line operation attempted again, at once, up to `n` further times while it fails (60_exceptions.md R138). -/
def withRetry {α : Type} (op : State → LineResult α) : Nat → State → LineResult α
  | 0, s => op s
  | n + 1, s =>
    match op s with
    | .ok v s' => .ok v s'
    | .failed _ s' => withRetry op n s'
    | .reset s' => .reset s'

/-- How often a failing operation is attempted again: never under `abort` (60_exceptions.md R137), up to `RETRY_MAX` times
under `hardened` (R138). -/
def retries (p : Params) : Nat :=
  match p.failPolicy with
  | .abort => 0
  | .hardened => p.retryMax

/-- `InRead(i)`, with the retries of the policy. -/
def inRead (i : InLine) (s : State) : LineResult Level :=
  withRetry (attempt (readAnswer i)) (retries s.params) s

/-- `OutWrite(i, b)`, with the retries of the policy. -/
def outWrite (i : OutLine) (b : Level) (s : State) : LineResult Unit :=
  withRetry (attempt (writeAnswer i b)) (retries s.params) s

/-- The order in which the operation that starts here reads the input lines (40_address_sampler.md R72). -/
def readOrder (s : State) : List InLine := permute (nextTurn s).order inLines

/-- The order in which the operation that starts here writes the output lines (42_output_driver.md R105). -/
def writeOrder (s : State) : List OutLine := permute (nextTurn s).order outLines

/-! ### A failure -/

/-- TAKING A FAILURE under `abort` (60_exceptions.md R137): the run ends at once with its one cause, and no output line has a
defined value. No retry and no further line operation. -/
def haltAbort (c : Cause) (s : State) : State :=
  { s with
    out := Config.freePattern s.draws
    outDefined := noneDefined
    run := .halted c []
    phase := .sample
    draws := s.draws + 1 }

/-- The safe-state drive (60_exceptions.md R139, R141): every line written low, each with its retries; a line whose write
fails is left without a defined value and the others are still driven. -/
def safeLines : List OutLine → State → LineResult Unit
  | [], s => .ok () s
  | i :: rest, s =>
    match outWrite i false s with
    | .ok _ s' => safeLines rest s'
    | .failed _ s' => safeLines rest s'
    | .reset s' => .reset s'

/-- The halt after the safe-state drive: the first recorded cause, with the later ones (60_exceptions.md R147). -/
def haltWith (c : Cause) (later : List Cause) (s : State) : State :=
  { s with run := .halted c later, phase := .sample }

/-- TAKING A PERSISTENT FAILURE under `hardened` (60_exceptions.md R139): the safe-state drive, then the halt. -/
def haltSafe (c : Cause) (later : List Cause) (s : State) : State :=
  match safeLines (writeOrder s) s with
  | .ok _ s' => haltWith c later s'
  | .failed _ s' => haltWith c later s'
  | .reset s' => s'

/-- TAKING A FAILURE, as the policy says (60_exceptions.md R136). -/
def takeFailure (c : Cause) (later : List Cause) (s : State) : State :=
  match s.params.failPolicy with
  | .abort => haltAbort c s
  | .hardened => haltSafe c later s

/-! ### The three steps of an iteration -/

/-- The reads of a SAMPLE, one at a time, each adding its weighted bit (40_address_sampler.md R70); the first failure ends
them and no Address is formed (R71). -/
def readLines : List InLine → Addr → State → LineResult Addr
  | [], acc, s => .ok acc s
  | i :: rest, acc, s =>
    match inRead i s with
    | .ok b s' => readLines rest (acc ||| weighted i b) s'
    | .failed c s' => .failed c s'
    | .reset s' => .reset s'

/-- SAMPLE (40_address_sampler.md R70, R71). -/
def sampleOp (s : State) : State :=
  match readLines (readOrder s) 0#4 s with
  | .ok a s' => { s' with phase := .lookup a }
  | .failed c s' => takeFailure c [] s'
  | .reset s' => s'

/-- LOOKUP of an index (41_program_table.md R80): the entry, by one ROM read without a side effect (20_memory.md R32); an
index outside 0..15 is an InvariantFailure, fatal under either policy, which leaves `OUT` as `abort` does
(60_exceptions.md R133). -/
def lookupOp (n : Nat) (s : State) : State :=
  match romEntry s.params n with
  | some p => { record (.rom (BitVec.ofNat 4 n) p) s with phase := .drive p }
  | none => haltAbort .invariantFailure s

/-- The writes of a DRIVE, one at a time (42_output_driver.md R100), with the causes recorded so far: under `abort` the first
failure ends them, under `hardened` a persistently failing line is recorded and the others are still written
(60_exceptions.md R140). -/
def writeLines (p : Pattern) : List OutLine → List Cause → State → LineResult (List Cause)
  | [], causes, s => .ok causes s
  | i :: rest, causes, s =>
    match outWrite i (bitOf p i) s with
    | .ok _ s' => writeLines p rest causes s'
    | .failed c s' =>
      match s'.params.failPolicy with
      | .abort => .failed c s'
      | .hardened => writeLines p rest (causes ++ [c]) s'
    | .reset s' => .reset s'

/-- DRIVE of a pattern (42_output_driver.md R100, R104): when nothing failed the pattern is gone and the loop is at the top
again; recorded failures halt the run once every line has been attempted. -/
def driveOp (p : Pattern) (s : State) : State :=
  match writeLines p (writeOrder s) [] s with
  | .ok [] s' => { s' with phase := .sample }
  | .ok (c :: later) s' => takeFailure c later s'
  | .failed c s' => takeFailure c [] s'
  | .reset s' => s'

/-- The top of the loop: where the next iteration starts, by whole iterations or by single operations (log 3). -/
def loopTop : Phase → Phase
  | .iter => .iter
  | _ => .sample

/-- ITER (43_control_loop.md R110): SAMPLE, then LOOKUP of the Address it left, then DRIVE of the pattern that left; a halt
or a reset in one of them ends it. Address and pattern cease to exist at its end. -/
def iterOp (s : State) : State :=
  let s1 := sampleOp s
  let s2 := match s1.phase with
    | .lookup a => lookupOp a.toNat s1
    | _ => s1
  let s3 := match s2.phase with
    | .drive p => driveOp p s2
    | _ => s2
  { s3 with phase := loopTop s.phase }

/-! ### Running and halted -/

/-- An operation runs only while the run state is `Running` (60_exceptions.md R142). -/
def whenRunning (op : State → State) (s : State) : Host.Outcome State Fault Refusal :=
  match s.run with
  | .running => .next (op s)
  | .halted c _ => .fault (.halted c)

/-- The halted machine (60_exceptions.md R142): the environment may still act, and a reset starts a new run; without one
the run is over. -/
def haltedStep (c : Cause) (s : State) : Host.Outcome State Fault Refusal :=
  if hasReset (nextTurn s).moves then .next (applyMoves (nextTurn s).moves (takeTurn s))
  else .fault (.halted c)

/-! ### The sequencer word -/

/-- The byte that says what the loop does next: in the lookup phase the bare ADDR4 code, else the place in the iteration
(Decode.lean; log 2). -/
def sequencerByte : Phase → Byte
  | .iter => 0x40#8
  | .sample => 0x10#8
  | .lookup a => a.zeroExtend 8
  | .drive _ => 0x30#8

/-- What the step decodes. -/
def fetchBytes (s : State) : List Byte := [sequencerByte s.phase]

/-- The state with a DRIVE next: of the pattern in flight, or, where no LOOKUP came before, of a free value (log 4). -/
def placeDrive (s : State) : State :=
  match s.phase with
  | .drive _ => s
  | _ => { s with phase := .drive (Config.freePattern s.draws), draws := s.draws + 1 }

/-- The state whose next step runs what a byte names: the loop placed there (log 4). -/
def placeByte (b : Byte) (s : State) : State :=
  match (b >>> 4).toNat with
  | 0 => { s with phase := .lookup (b.truncate 4) }
  | 1 => { s with phase := .sample }
  | 2 => { s with phase := .lookup (b.truncate 4) }
  | 3 => placeDrive s
  | 4 => { s with phase := .iter }
  | _ => s

end Sys2Proof.Machine
end

