-- ==== Sys2Proof/Machine/Driver.lean ====
section
/-! DEFINITION. The meaning of DRIVE (42_output_driver.md). -/

namespace Sys2Proof.Machine

/-- DRIVE (42_output_driver.md R100) of the pattern in flight; without one there is no operand. -/
def execDrive (s : State) : Host.Outcome State Fault Refusal :=
  match s.run, s.phase with
  | .halted c _, _ => .fault (.halted c)
  | .running, .drive p => .next (driveOp p s)
  | .running, _ => .refused .noOperand

end Sys2Proof.Machine
end

