-- ==== Sys2Proof/Machine/Loop.lean ====
section
/-! DEFINITION. The meaning of ITER (43_control_loop.md). -/

namespace Sys2Proof.Machine

/-- ITER (43_control_loop.md R110): one iteration of the control loop. Run by exec where an Address or a pattern is in
flight, it does the same, since it reads `T` and `RUN` alone (R110), and what was in flight is gone (DEDUCED, log 30). -/
def execIter (s : State) : Host.Outcome State Fault Refusal := whenRunning iterOp s

end Sys2Proof.Machine
end

