-- ==== Sys2Proof/Machine/Sampler.lean ====
section
/-! DEFINITION. The meaning of SAMPLE (40_address_sampler.md). -/

namespace Sys2Proof.Machine

/-- SAMPLE (40_address_sampler.md R70): four reads in any order, the Address composed from them. Run by exec where an
Address or a pattern is in flight, it does the same, since it reads no state of the device (R70), and what was in flight is gone
(DEDUCED, log 30). -/
def execSample (s : State) : Host.Outcome State Fault Refusal := whenRunning sampleOp s

end Sys2Proof.Machine
end

