-- ==== Sys2Proof/Machine/Table.lean ====
section
/-! DEFINITION. The meanings of LOOKUP and of the sixteen ADDR4 rows (41_program_table.md). A row ROM<k> is the LOOKUP of entry
k, the one its code selects (30_encoding.md R55). The loop runs it in one place only: right after the SAMPLE that gave the Address
k. DESIGN CHOICE (log 30): run by exec anywhere else in a running machine (another Address in flight, or none), the row reads
entry k all the same, and what was in flight is gone. No step does so. -/

namespace Sys2Proof.Machine

/-- LOOKUP (41_program_table.md R80) of the Address in flight; without one there is no operand. -/
def execLookup (s : State) : Host.Outcome State Fault Refusal :=
  match s.run, s.phase with
  | .halted c _, _ => .fault (.halted c)
  | .running, .lookup a => .next (lookupOp a.toNat s)
  | .running, _ => .refused .noOperand

/-- Address 0: entry 0 of the ROM (41_program_table.md R81); out of place too, log 30. -/
def execRom0 (s : State) : Host.Outcome State Fault Refusal := whenRunning (lookupOp 0) s

/-- Address 1: entry 1 of the ROM (41_program_table.md R82); out of place too, log 30. -/
def execRom1 (s : State) : Host.Outcome State Fault Refusal := whenRunning (lookupOp 1) s

/-- Address 2: entry 2 of the ROM (41_program_table.md R83); out of place too, log 30. -/
def execRom2 (s : State) : Host.Outcome State Fault Refusal := whenRunning (lookupOp 2) s

/-- Address 3: entry 3 of the ROM (41_program_table.md R84); out of place too, log 30. -/
def execRom3 (s : State) : Host.Outcome State Fault Refusal := whenRunning (lookupOp 3) s

/-- Address 4: entry 4 of the ROM (41_program_table.md R85); out of place too, log 30. -/
def execRom4 (s : State) : Host.Outcome State Fault Refusal := whenRunning (lookupOp 4) s

/-- Address 5: entry 5 of the ROM (41_program_table.md R86); out of place too, log 30. -/
def execRom5 (s : State) : Host.Outcome State Fault Refusal := whenRunning (lookupOp 5) s

/-- Address 6: entry 6 of the ROM (41_program_table.md R87); out of place too, log 30. -/
def execRom6 (s : State) : Host.Outcome State Fault Refusal := whenRunning (lookupOp 6) s

/-- Address 7: entry 7 of the ROM (41_program_table.md R88); out of place too, log 30. -/
def execRom7 (s : State) : Host.Outcome State Fault Refusal := whenRunning (lookupOp 7) s

/-- Address 8: entry 8 of the ROM (41_program_table.md R89); out of place too, log 30. -/
def execRom8 (s : State) : Host.Outcome State Fault Refusal := whenRunning (lookupOp 8) s

/-- Address 9: entry 9 of the ROM (41_program_table.md R90); out of place too, log 30. -/
def execRom9 (s : State) : Host.Outcome State Fault Refusal := whenRunning (lookupOp 9) s

/-- Address 10: entry 10 of the ROM (41_program_table.md R91); out of place too, log 30. -/
def execRom10 (s : State) : Host.Outcome State Fault Refusal := whenRunning (lookupOp 10) s

/-- Address 11: entry 11 of the ROM (41_program_table.md R92); out of place too, log 30. -/
def execRom11 (s : State) : Host.Outcome State Fault Refusal := whenRunning (lookupOp 11) s

/-- Address 12: entry 12 of the ROM (41_program_table.md R93); out of place too, log 30. -/
def execRom12 (s : State) : Host.Outcome State Fault Refusal := whenRunning (lookupOp 12) s

/-- Address 13: entry 13 of the ROM (41_program_table.md R94); out of place too, log 30. -/
def execRom13 (s : State) : Host.Outcome State Fault Refusal := whenRunning (lookupOp 13) s

/-- Address 14: entry 14 of the ROM (41_program_table.md R95); out of place too, log 30. -/
def execRom14 (s : State) : Host.Outcome State Fault Refusal := whenRunning (lookupOp 14) s

/-- Address 15: entry 15 of the ROM (41_program_table.md R96); out of place too, log 30. -/
def execRom15 (s : State) : Host.Outcome State Fault Refusal := whenRunning (lookupOp 15) s

end Sys2Proof.Machine
end

