-- ==== Sys2Proof/Machine/Dispatch.lean ====
section
/-! DEFINITION. The dispatch: one arm per row of the opcode table, each one call of its meaning. -/

namespace Sys2Proof.Machine

/-- What an instruction does. -/
def exec (i : Instr) (s : State) : Host.Outcome State Fault Refusal :=
  match i with
  | .iter => Sys2Proof.Machine.execIter s
  | .sample => Sys2Proof.Machine.execSample s
  | .lookup => Sys2Proof.Machine.execLookup s
  | .drive => Sys2Proof.Machine.execDrive s
  | .rom0 => Sys2Proof.Machine.execRom0 s
  | .rom1 => Sys2Proof.Machine.execRom1 s
  | .rom2 => Sys2Proof.Machine.execRom2 s
  | .rom3 => Sys2Proof.Machine.execRom3 s
  | .rom4 => Sys2Proof.Machine.execRom4 s
  | .rom5 => Sys2Proof.Machine.execRom5 s
  | .rom6 => Sys2Proof.Machine.execRom6 s
  | .rom7 => Sys2Proof.Machine.execRom7 s
  | .rom8 => Sys2Proof.Machine.execRom8 s
  | .rom9 => Sys2Proof.Machine.execRom9 s
  | .rom10 => Sys2Proof.Machine.execRom10 s
  | .rom11 => Sys2Proof.Machine.execRom11 s
  | .rom12 => Sys2Proof.Machine.execRom12 s
  | .rom13 => Sys2Proof.Machine.execRom13 s
  | .rom14 => Sys2Proof.Machine.execRom14 s
  | .rom15 => Sys2Proof.Machine.execRom15 s

end Sys2Proof.Machine
end

