-- ==== Sys2Proof/Machine/Step.lean ====
section
/-! DEFINITION. The step: a halted machine waits for a reset; a running one runs the row that its place in the iteration and
its Address select. -/

namespace Sys2Proof.Machine

/-- One step of the loop (43_control_loop.md R111): SAMPLE, then the ADDR4 row of the Address, which is the LOOKUP, then
DRIVE, then SAMPLE again; or whole iterations (30_encoding.md R55; log 1, 3). -/
def step (s : State) : Host.Outcome State Fault Refusal :=
  match s.run with
  | .halted c _ => haltedStep c s
  | .running =>
    match decode (fetchBytes s) with
    | .ok i _ => exec i s
    | .reject _ => .refused .noRow

/-- The state whose next step runs the instruction of a table word (log 4). -/
def State.withFetchWord (s : State) (_nbits w : Nat) : State := placeByte (BitVec.ofNat 8 w) s

end Sys2Proof.Machine
end

