-- ==== Sys2Proof/Safety.lean ====
section
/-! DEFINITION. The terms in which claims speak of runs: which turns of the environment are quiet, what a safe state is, and the
two invariants of the loop. -/

namespace Sys2Proof.Machine

/-- A turn in which the environment does nothing and the operation succeeds. -/
def isQuiet (t : Turn) : Bool := t.moves.isEmpty && t.ok

/-- A turn in which the environment does nothing and the operation fails. -/
def isFailing (t : Turn) : Bool := t.moves.isEmpty && !t.ok

/-- A move that only sets an input line. -/
def isSetInput : EnvMove → Bool
  | .setInput _ _ => true
  | .forceOutput _ _ => false
  | .reset => false

/-- A turn in which the environment at most sets input lines and the operation succeeds. -/
def isCalm (t : Turn) : Bool := t.moves.all isSetInput && t.ok

/-- The script begins with `n` turns of a kind. -/
def beginsWith (kind : Turn → Bool) (n : Nat) (script : List Turn) : Bool :=
  decide (n ≤ script.length) && (script.take n).all kind

/-- The input lines after moves that set them. -/
def inputsAfterMoves : List EnvMove → InputLines → InputLines
  | [], lines => lines
  | .setInput i src :: ms, lines => inputsAfterMoves ms (setInputSource lines i src)
  | .forceOutput _ _ :: ms, lines => inputsAfterMoves ms lines
  | .reset :: ms, lines => inputsAfterMoves ms lines

/-- The input lines after turns that set them. -/
def inputsAfterTurns (ts : List Turn) (lines : InputLines) : InputLines :=
  ts.foldl (fun l t => inputsAfterMoves t.moves l) lines

/-- The moves that set all four input lines. -/
def setAllInputs (new : InputLines) : List EnvMove := inLines.map fun i => .setInput i (inputSource new i)

/-- The line and level of an `OutWrite` in the observer's record. -/
def Obs.written : Obs → Option (OutLine × Level)
  | .write i b _ _ _ => some (i, b)
  | .env _ => none
  | .read _ _ => none
  | .rom _ _ => none

/-- The line and answer of an `InRead` in the observer's record. -/
def Obs.answered : Obs → Option (InLine × Option Level)
  | .read i answer => some (i, answer)
  | .env _ => none
  | .rom _ _ => none
  | .write _ _ _ _ _ => none

/-- The environment's move in the observer's record. -/
def Obs.moved : Obs → Option EnvMove
  | .env m => some m
  | .read _ _ => none
  | .rom _ _ => none
  | .write _ _ _ _ _ => none

/-- A stretch of the record holds exactly these moves of the environment and these reads, each in its order, and nothing else. -/
def RecordsReads (events : List Obs) (moves : List EnvMove) (reads : List (InLine × Option Level)) : Prop :=
  events.filterMap Obs.moved = moves ∧ events.filterMap Obs.answered = reads ∧
    events.length = moves.length + reads.length

/-- A stretch of the record holds exactly these moves of the environment and these writes, each in its order, and nothing else. -/
def RecordsWrites (events : List Obs) (moves : List EnvMove) (writes : List (OutLine × Level)) : Prop :=
  events.filterMap Obs.moved = moves ∧ events.filterMap Obs.written = writes ∧
    events.length = moves.length + writes.length

/-- What an observer sees of output line `o_i` right after an event of the record, where the event is an `OutWrite`: its level, or
nothing where it has no defined value. -/
def Obs.shows (e : Obs) (i : OutLine) : Option Level :=
  match e with
  | .write _ _ _ out marks => if bitOf marks i then some (bitOf out i) else none
  | .env _ => none
  | .read _ _ => none
  | .rom _ _ => none

/-- A run is safe as long as no failure has been recorded (60_exceptions.md R142: every claim of normal operation takes "no
failure recorded" as a premise or proves it). -/
def Safe (s : State) : Prop := s.run = .running

/-- The defined output lines agree with a pattern. -/
def Shows (s : State) (p : Pattern) : Prop := ∀ i : OutLine, ∀ b, observe s i = some b → b = bitOf p i

/-- The defined output lines are lines that a platform fixes at reset, each at the level it fixes (10_state.md R26, the spec's own
decision D3). -/
def ShowsReset (s : State) : Prop :=
  ∀ i : OutLine, ∀ b, observe s i = some b → bitOf s.params.outResetFixed i = true ∧ b = bitOf s.params.outResetLevel i

/-- The outputs of a running block are never a mixture at an operation's end: the defined lines all show one table entry, or
they are lines that a platform fixes at reset and show its levels; and the pattern in flight is a table entry (42_output_driver.md R105, R106). -/
def OutputInv (s : State) : Prop :=
  s.run = .running →
    ((∃ a : Addr, Shows s (table s.params a)) ∨ ShowsReset s) ∧
    ∀ p, s.phase = .drive p → ∃ a : Addr, p = table s.params a

/-- What a halt leaves (60_exceptions.md R133, R137 to R141, R147): neither Address nor pattern; never an InvariantFailure;
under `abort` one cause and no defined output line; under `hardened` every defined output line low, one cause where a
read failed, and no line named twice. -/
def HaltInv (s : State) : Prop :=
  ∀ c later, s.run = .halted c later →
    (s.phase = .sample ∨ s.phase = .iter) ∧
    (∀ d ∈ c :: later, d ≠ .invariantFailure) ∧
    (c :: later).Nodup ∧
    (∀ i, .inputReadFailure i ∈ c :: later → later = []) ∧
    (s.params.failPolicy = .abort → later = [] ∧ s.outDefined = noneDefined) ∧
    (s.params.failPolicy = .hardened → Shows s 0b00000000#8)

/-- Two states that differ in nothing but the output lines and the observer's record. -/
def SameButOutputs (s t : State) : Prop :=
  t = { s with out := t.out, outDefined := t.outDefined, trace := t.trace }

/-- Two outcomes that agree: both next, with related states, or the same stop. -/
def OutcomesAgree (related : State → State → Prop) :
    Host.Outcome State Fault Refusal → Host.Outcome State Fault Refusal → Prop
  | .next s, .next t => related s t
  | .fault e, .fault f => e = f
  | .refused r, .refused q => r = q
  | .next _, .fault _ => False
  | .next _, .refused _ => False
  | .fault _, .next _ => False
  | .fault _, .refused _ => False
  | .refused _, .next _ => False
  | .refused _, .fault _ => False

/-- A turn without moves, with its answer and its order number. -/
def plainTurn (ok : Bool) (order : Nat) : Turn := { moves := [], ok := ok, order := order }

/-- The turns in which one line operation, with `n` retries, fails for good or succeeds at once. -/
def lineTurns (n order : Nat) (fails : Bool) : List Turn :=
  if fails then List.replicate (n + 1) (plainTurn false order) else [plainTurn true order]

/-- The writes of one output line with those turns, as the observer's record has them. -/
def lineWrites (n : Nat) (fails : Bool) (i : OutLine) (b : Level) : List (Option (OutLine × Level)) :=
  List.replicate (if fails then n + 1 else 1) (some (i, b))

/-- Driving a pattern makes exactly the listed lines high and the others low, whatever they were and however the input lines
change meanwhile. -/
def DrivingMakesHigh (p : Pattern) (high : List OutLine) : Prop :=
  ∀ s : State, s.run = .running → s.phase = .drive p → beginsWith isCalm 8 s.script = true →
    ∃ u, exec .drive s = .next u ∧ ∀ i, observe u i = some (decide (i ∈ high))

/-- The meaning of an ADDR4 row: from every running state it completes, with the pattern in flight, one ROM read in the record and
nothing else changed. With the row's own Address in flight this is what the spec gives it (`RowReadsInPlace`); anywhere else it is
the MODEL's choice (log 30). -/
def RowReads (i : Instr) (a : Addr) (entry : Params → Pattern) : Prop :=
  rowOfAddr a = some i ∧
  ∀ s : State, s.run = .running →
    exec i s = .next { s with
      phase := .drive (entry s.params), trace := s.trace ++ [.rom a (entry s.params)] }

/-- The meaning of an ADDR4 row where the spec performs it (30_encoding.md R55, 41_program_table.md R80): with its own Address in
flight it completes, with the entry as the pattern, one ROM read in the record and nothing else changed; and it is the step. -/
def RowReadsInPlace (i : Instr) (a : Addr) (entry : Pattern) : Prop :=
  rowOfAddr a = some i ∧
  ∀ s : State, s.run = .running → s.phase = .lookup a →
    exec i s = .next { s with phase := .drive entry, trace := s.trace ++ [.rom a entry] } ∧ step s = exec i s

end Sys2Proof.Machine
end

