-- ==== Sys2Proof/Certificates/Slice0/Obligations.lean ====
section
/-! DEFINITION. The statements for the provers, in the order of OBLIGATIONS.json: encoding and the step, SAMPLE, the ROM, DRIVE,
failures, halt and reset, ITER, whole-machine rules and invariants. -/

open Sys2Proof Sys2Proof.Machine

/-! ### Encoding and the step -/

/-- 30_encoding.md R55: each of the sixteen codes selects its row, `a3 a2 a1 a0` being bits 3 to 0. The words above 15, which
name the SEQ rows, and the rejections are the MODEL's choice (log 2). -/
def Obligations.AddressCodesSelectTheirRows : Prop :=
  (decode [0b00000000#8] = .ok .rom0 [] ∧ decode [0b00000001#8] = .ok .rom1 [] ∧
   decode [0b00000010#8] = .ok .rom2 [] ∧ decode [0b00000011#8] = .ok .rom3 [] ∧
   decode [0b00000100#8] = .ok .rom4 [] ∧ decode [0b00000101#8] = .ok .rom5 [] ∧
   decode [0b00000110#8] = .ok .rom6 [] ∧ decode [0b00000111#8] = .ok .rom7 []) ∧
  (decode [0b00001000#8] = .ok .rom8 [] ∧ decode [0b00001001#8] = .ok .rom9 [] ∧
   decode [0b00001010#8] = .ok .rom10 [] ∧ decode [0b00001011#8] = .ok .rom11 [] ∧
   decode [0b00001100#8] = .ok .rom12 [] ∧ decode [0b00001101#8] = .ok .rom13 [] ∧
   decode [0b00001110#8] = .ok .rom14 [] ∧ decode [0b00001111#8] = .ok .rom15 []) ∧
  (decode [0b00010000#8] = .ok .sample [] ∧ decode [0b00100101#8] = .ok .lookup [] ∧
   decode [0b00111111#8] = .ok .drive [] ∧ decode [0b01000000#8] = .ok .iter [] ∧
   decode [0b01010000#8] = .reject (.noRow 0b01010000#8) ∧ decode [] = .reject .noBytes)

/-- Decoder and encoder agree in both directions, for every row and every value of the bits a SEQ row ignores. The words of the
SEQ rows are the MODEL's choice (log 2); those of the ADDR4 rows are 30_encoding.md R55's. -/
def Obligations.DecodeAndEncodeAgree : Prop :=
  ∀ (i : Instr) (bytes rest : List Byte),
    decode bytes = .ok i rest ↔ ∃ aaaa : Addr, bytes = encodeWith aaaa i ++ rest

/-- In a running machine a step runs the instruction its sequencer word decodes to, with nothing around it: there is no
program counter to move (10_state.md R18). The sequencer word is the MODEL's choice (log 2). -/
def Obligations.StepRunsTheDecodedRow : Prop :=
  ∀ (s : State) (i : Instr) (rest : List Byte),
    s.run = .running → decode (fetchBytes s) = .ok i rest → step s = exec i s

/-- Placing a table word makes the next step run its instruction, and touches nothing but the phase and the count of free
values; the MODEL's own operation (log 4). -/
def Obligations.PlacedWordRunsNext : Prop :=
  ∀ (s : State) (nbits w : Nat) (i : Instr),
    s.run = .running → decodeTableWord nbits w = some i →
    step (s.withFetchWord nbits w) = exec i (s.withFetchWord nbits w) ∧
    s.withFetchWord nbits w =
      { s with phase := (s.withFetchWord nbits w).phase, draws := (s.withFetchWord nbits w).draws }

/-- Every operation the loop performs is always permitted (60_exceptions.md R148, 30_encoding.md R56): no step is refused. -/
def Obligations.StepIsNeverRefused : Prop :=
  ∀ (s : State) (r : Refusal), step s ≠ .refused r

/-! ### SAMPLE -/

/-- 30_encoding.md R52: `Address = {b3, b2, b1, b0} = 8*b3 + 4*b2 + 2*b1 + 1*b0`, without inversion. -/
def Obligations.AddressIsTheWeightedSum : Prop :=
  ∀ b3 b2 b1 b0 : Level,
    (composeAddress b3 b2 b1 b0).toNat = 8 * b3.toNat + 4 * b2.toNat + 2 * b1.toNat + 1 * b0.toNat ∧
    (composeAddress b3 b2 b1 b0).toNat < 16 ∧
    bitOf (composeAddress b3 b2 b1 b0) 3 = b3 ∧ bitOf (composeAddress b3 b2 b1 b0) 2 = b2 ∧
    bitOf (composeAddress b3 b2 b1 b0) 1 = b1 ∧ bitOf (composeAddress b3 b2 b1 b0) 0 = b0

/-- 40_address_sampler.md R70, R76: where the environment lets the four reads succeed and does nothing else, SAMPLE completes
with the Address the lines hold, four reads in the observer's record, and nothing else changed. Which turns the environment has
taken is the MODEL's (log 9). -/
def Obligations.SampleComposesThePresentedAddress : Prop :=
  ∀ s : State, s.run = .running → beginsWith isQuiet 4 s.script = true →
    exec .sample s = .next { s with
      phase := .lookup (presentedAddress s)
      script := s.script.drop 4
      trace := s.trace ++ (readOrder s).map fun i => .read i (some (inputLevel s i)) }

/-- 40_address_sampler.md R72 (the spec's own decision D5): each line is read at its own instant, in any order. With inputs set
between the reads, SAMPLE completes, bit `i` of the Address is the level line `a_i` had when its turn came, the record holds the
environment's moves and the four reads in the order chosen, and no output line changes. -/
def Obligations.SampleReadsEachLineAtItsInstant : Prop :=
  ∀ s : State, s.run = .running → beginsWith isCalm 4 s.script = true →
    ∃ (a : Addr) (tr : List Obs),
      exec .sample s = .next { s with
        phase := .lookup a
        inputs := inputsAfterTurns (s.script.take 4) s.inputs
        script := s.script.drop 4
        trace := s.trace ++ tr } ∧
      (∀ (k : Nat) (i : InLine), (readOrder s)[k]? = some i →
        bitOf a i = sourceLevel s.params.pullLevel
          (inputSource (inputsAfterTurns (s.script.take (k + 1)) s.inputs) i)) ∧
      RecordsReads tr ((s.script.take 4).flatMap Turn.moves) ((readOrder s).map fun i => (i, some (bitOf a i)))

/-- 40_address_sampler.md R72 (the spec's own decision D5), 95_test_vectors.md P3: when all four lines change from old to new levels
together, in one turn between two reads, every bitwise mixture of old and new can be the Address: the lines that are to show their
old level are read before that turn, the others from it on. The environment does nothing else; where no line is to show its new
level the change comes after the last read. -/
def Obligations.ChangingInputsCanMixInEveryWay : Prop :=
  ∀ (s : State) (new : InputLines) (changed : InLine → Bool), s.run = .running →
    ∃ (script : List Turn) (u : State) (a : Addr),
      script.length = 5 ∧
      (∀ (n : Nat) (t : Turn), script[n]? = some t → t.ok = true ∧
        t.moves = if n = (inLines.filter fun i => !changed i).length then setAllInputs new else []) ∧
      exec .sample { s with script := script } = .next u ∧ u.phase = .lookup a ∧ u.script = script.drop 4 ∧
      u.inputs = (if ∃ i, changed i = true then new else s.inputs) ∧
      ∀ i, bitOf a i =
        if changed i then sourceLevel s.params.pullLevel (inputSource new i) else inputLevel s i

/-- 93_implementation_defined.md U7, U8 (the spec's own decisions D5, D6; the numbering is the MODEL's, log 11): every order of the four reads and every order of the
eight writes has a number, and wherever the environment's next turn carries that number a SAMPLE reads, and a DRIVE writes, in that
order. -/
def Obligations.EveryOrderOfLinesCanOccur : Prop :=
  (∀ l : List InLine, l.Perm inLines → ∃ k, ∀ s : State, (nextTurn s).order = k → readOrder s = l ∧
    (s.run = .running → beginsWith isCalm 4 s.script = true →
      ∃ (u : State) (a : Addr) (tr : List Obs),
        exec .sample s = .next u ∧ u.phase = .lookup a ∧ u.trace = s.trace ++ tr ∧
        tr.filterMap Obs.answered = l.map fun i => (i, some (bitOf a i)))) ∧
  ∀ l : List OutLine, l.Perm outLines → ∃ k, ∀ s : State, (nextTurn s).order = k → writeOrder s = l ∧
    ∀ p, s.run = .running → s.phase = .drive p → beginsWith isCalm 8 s.script = true →
      ∃ (u : State) (ws : List Obs),
        exec .drive s = .next u ∧ u.phase = .sample ∧ u.trace = s.trace ++ ws ∧
        ws.filterMap Obs.written = l.map fun i => (i, bitOf p i)

/-- 40_address_sampler.md R70 ("SAMPLE never changes `OUT`"): a SAMPLE that completes leaves the device running with the same ROM
and parameters, and defines or alters no output line (a level forced from outside only takes a defined value away, log 8). -/
def Obligations.CompletedSampleDefinesNoOutput : Prop :=
  ∀ (s u : State) (a : Addr), s.run = .running → exec .sample s = .next u → u.phase = .lookup a →
    u.run = .running ∧ u.params = s.params ∧ ∀ i b, observe u i = some b → observe s i = some b

/-- 40_address_sampler.md R75: an unconnected line reads the pull level, so with all four unconnected SAMPLE gives Address 15 or
0 as the pull level is high or low. -/
def Obligations.UnconnectedInputsReadThePullLevel : Prop :=
  (∀ (s : State) (i : InLine), inputSource s.inputs i = .unconnected → inputLevel s i = s.params.pullLevel) ∧
  ∀ s : State, s.run = .running → beginsWith isQuiet 4 s.script = true →
    (∀ i, inputSource s.inputs i = .unconnected) →
    ∃ u, exec .sample s = .next u ∧ u.phase = .lookup (if s.params.pullLevel then 15#4 else 0#4)

/-! ### The ROM -/

/-- 41_program_table.md R82, R90 to R96: the rows whose literals the source prints; and driving such a literal makes the lines
the source names high and the others low. With the row's own Address in flight the reading is the spec's; that a row reads its entry
from every other running state is the MODEL's choice (log 30). -/
def Obligations.PrintedRowsReadTheirLiterals : Prop :=
  RowReads .rom1 (composeAddress false false false true) (fun _ => 0b10110110#8) ∧
  RowReads .rom9 (composeAddress true false false true) (fun _ => 0b11110000#8) ∧
  RowReads .rom10 (composeAddress true false true false) (fun _ => 0b00000000#8) ∧
  RowReads .rom11 (composeAddress true false true true) (fun _ => 0b00000000#8) ∧
  RowReads .rom12 (composeAddress true true false false) (fun _ => 0b00000000#8) ∧
  RowReads .rom13 (composeAddress true true false true) (fun _ => 0b00000000#8) ∧
  RowReads .rom14 (composeAddress true true true false) (fun _ => 0b00000000#8) ∧
  RowReads .rom15 (composeAddress true true true true) (fun _ => 0b00000000#8) ∧
  DrivingMakesHigh 0b10110110#8 [1, 2, 4, 5, 7] ∧
  DrivingMakesHigh 0b11110000#8 [4, 5, 6, 7] ∧
  DrivingMakesHigh 0b00000000#8 []

/-- 41_program_table.md R81, R83 to R89: the rows whose literals the source does not print read the parameters, for every value
of them. That the entries are parameters is the spec's own decision (D2); that a row reads its entry where its own Address is not in
flight is the MODEL's choice (log 30). -/
def Obligations.OpenRowsReadTheirParameters : Prop :=
  RowReads .rom0 (composeAddress false false false false) Params.t0 ∧
  RowReads .rom2 (composeAddress false false true false) Params.t2 ∧
  RowReads .rom3 (composeAddress false false true true) Params.t3 ∧
  RowReads .rom4 (composeAddress false true false false) Params.t4 ∧
  RowReads .rom5 (composeAddress false true false true) Params.t5 ∧
  RowReads .rom6 (composeAddress false true true false) Params.t6 ∧
  RowReads .rom7 (composeAddress false true true true) Params.t7 ∧
  RowReads .rom8 (composeAddress true false false false) Params.t8

/-- 41_program_table.md R80, 30_encoding.md R55: LOOKUP completes with the entry of the Address in flight, one ROM read in the
record and nothing else changed; and it is what the one row selected by that Address does. -/
def Obligations.LookupReadsTheEntryOfItsAddress : Prop :=
  ∀ (s : State) (a : Addr), s.run = .running → s.phase = .lookup a →
    exec .lookup s = .next { s with
      phase := .drive (table s.params a), trace := s.trace ++ [.rom a (table s.params a)] } ∧
    ∃ i, rowOfAddr a = some i ∧ exec i s = exec .lookup s

/-- 41_program_table.md R97: the table has exactly 16 entries, one for every Address. -/
def Obligations.TableHasSixteenEntries : Prop :=
  ∀ p : Params, (tableList p).length = 16 ∧ (∀ n, (romEntry p n).isSome ↔ n < 16) ∧
    ∀ a : Addr, (tableList p)[a.toNat]? = some (table p a) ∧ romEntry p a.toNat = some (table p a)

/-- 41_program_table.md R98, 60_exceptions.md R133: an index outside 0..15 gives no pattern; it halts the run with an
InvariantFailure under either policy, no output line defined (the spec's own decision D16; OUT as abort leaves it under either
policy is the MODEL's reading, log 19). -/
def Obligations.IndexOutsideTheTableHalts : Prop :=
  ∀ (s : State) (n : Nat), 16 ≤ n →
    (lookupOp n s).run = .halted .invariantFailure [] ∧ (lookupOp n s).phase = .sample ∧
    (lookupOp n s).outDefined = noneDefined ∧ (lookupOp n s).params = s.params ∧
    (lookupOp n s).script = s.script ∧ (lookupOp n s).trace = s.trace

/-! ### DRIVE -/

/-- 42_output_driver.md R100, R101, R103: where the eight writes succeed and the environment at most sets input lines, DRIVE completes
from every prior state of the outputs with `OUT = p` on all eight lines, exactly one write of its bit to every line (and the
environment's moves) in the record, the loop at its first step again, and nothing else changed. -/
def Obligations.DriveSetsEveryLineFromThePattern : Prop :=
  ∀ (s : State) (p : Pattern), s.run = .running → s.phase = .drive p → beginsWith isCalm 8 s.script = true →
    ∃ ws : List Obs,
      exec .drive s = .next { s with
        out := p, outDefined := allDefined, phase := .sample
        inputs := inputsAfterTurns (s.script.take 8) s.inputs
        script := s.script.drop 8, trace := s.trace ++ ws } ∧
      RecordsWrites ws ((s.script.take 8).flatMap Turn.moves) ((writeOrder s).map fun i => (i, bitOf p i)) ∧
      (writeOrder s).Perm outLines

/-- 42_output_driver.md R102: a second DRIVE of the same pattern leaves the outputs as they are, and no line changes level during
it, however the input lines change meanwhile. -/
def Obligations.DriveTwiceChangesNoLevel : Prop :=
  ∀ (s : State) (p : Pattern), s.run = .running → s.phase = .drive p → beginsWith isCalm 16 s.script = true →
    ∃ u v, exec .drive s = .next u ∧ exec .drive { u with phase := .drive p } = .next v ∧
      u.out = p ∧ v.out = p ∧ u.outDefined = allDefined ∧ v.outDefined = allDefined ∧
      ∃ ws, v.trace = u.trace ++ ws ∧ (ws.filterMap Obs.written).length = 8 ∧
        ∀ e ∈ ws, e.written.isSome = true → ∀ i, e.shows i = some (bitOf p i)

/-- 42_output_driver.md R105: during a DRIVE every line holds its old level or its new one, and changes at most once: up to its
own write it has the old level (or no defined value, as before) and from then on the new one, however the input lines change
meanwhile. That the transitions are visible is the spec's own decision (D6). -/
def Obligations.TransitionalOutputsMixOldAndNewOnce : Prop :=
  ∀ (s : State) (p : Pattern), s.run = .running → s.phase = .drive p → beginsWith isCalm 8 s.script = true →
    ∃ (u : State) (ws : List Obs), exec .drive s = .next u ∧ u.trace = s.trace ++ ws ∧
      (ws.filterMap Obs.written).length = 8 ∧
      ∀ i : OutLine, ∃ n, n < 8 ∧ (writeOrder s)[n]? = some i ∧
        ∀ (k : Nat) (e : Obs), (ws.filter fun e => e.written.isSome)[k]? = some e →
          e.shows i = if k < n then observe s i else some (bitOf p i)

/-- 70_reset_and_hazards.md R173: a level forced onto an output line lasts at most until the DRIVE writes that line. Forced before its
write it is gone; forced after it, the line has no defined value (the MODEL's choice, log 8) and every other line shows the
pattern. -/
def Obligations.ForcedLevelLastsUntilTheWrite : Prop :=
  ∀ (s : State) (p : Pattern) (before after : List Turn) (t : Turn) (line : OutLine) (b : Level),
    s.run = .running → s.phase = .drive p → s.script = before ++ t :: after →
    before.all isCalm = true → before.length < 8 → t.moves = [.forceOutput line b] → t.ok = true →
    beginsWith isCalm (7 - before.length) after = true →
    ∃ u, exec .drive s = .next u ∧ u.run = .running ∧ u.phase = .sample ∧
      ∀ i, observe u i =
        if i = line ∧ i ∈ (writeOrder s).take before.length then none else some (bitOf p i)

/-! ### One line operation -/

/-- 20_memory.md R38, R39: a read changes nothing of the device and a failed one gives no value; a write changes its own line only,
to the level when it succeeds and to no defined value when it fails. -/
def Obligations.LineOperationsTouchTheirLineOnly : Prop :=
  (∀ (i : InLine) (s : State),
    readAnswer i true s = .ok (inputLevel s i) { s with trace := s.trace ++ [.read i (some (inputLevel s i))] } ∧
    readAnswer i false s = .failed (.inputReadFailure i) { s with trace := s.trace ++ [.read i none] }) ∧
  ∀ (i : OutLine) (b : Level) (s : State),
    (∃ t, writeAnswer i b true s = .ok () t ∧ observe t i = some b ∧ (∀ j, j ≠ i → observe t j = observe s j) ∧
      t = { s with out := t.out, outDefined := t.outDefined, trace := t.trace }) ∧
    ∃ t, writeAnswer i b false s = .failed (.outputWriteFailure i) t ∧ observe t i = none ∧
      (∀ j, j ≠ i → observe t j = observe s j ∧ bitOf t.out j = bitOf s.out j) ∧
      t = { s with out := t.out, outDefined := t.outDefined, draws := t.draws, trace := t.trace }

/-- 60_exceptions.md R138 (the spec's own decisions D8, D18): under `hardened` a failing line operation is attempted again, the same operation on the same line with the
same value, up to `RETRY_MAX` further times, before any other; the first success counts and nothing is reported; after
1 + `RETRY_MAX` failures it has failed for good. -/
def Obligations.RetryUsesTheFirstSuccess : Prop :=
  ∀ (s : State) (fs rest : List Turn) (t : Turn),
    s.params.failPolicy = .hardened → s.params.linesInfallible = false → fs.all isFailing = true →
    (fs.length ≤ s.params.retryMax → isQuiet t = true → s.script = fs ++ t :: rest →
      (∀ i, inRead i s = .ok (inputLevel s i) { s with
          script := rest
          trace := s.trace ++ List.replicate fs.length (.read i none) ++ [.read i (some (inputLevel s i))] }) ∧
      ∀ i b, ∃ u, outWrite i b s = .ok () u ∧ observe u i = some b ∧ (∀ j, j ≠ i → observe u j = observe s j) ∧
        u.run = s.run ∧ u.phase = s.phase ∧ u.params = s.params ∧ u.script = rest ∧
        ∃ ws, u.trace = s.trace ++ ws ∧ ws.map Obs.written = List.replicate (fs.length + 1) (some (i, b))) ∧
    (fs.length = s.params.retryMax + 1 → s.script = fs ++ rest →
      (∀ i, inRead i s = .failed (.inputReadFailure i) { s with
          script := rest, trace := s.trace ++ List.replicate fs.length (.read i none) }) ∧
      ∀ i b, ∃ u, outWrite i b s = .failed (.outputWriteFailure i) u ∧ observe u i = none ∧
        (∀ j, j ≠ i → observe u j = observe s j) ∧
        u.run = s.run ∧ u.phase = s.phase ∧ u.params = s.params ∧ u.script = rest ∧
        ∃ ws, u.trace = s.trace ++ ws ∧ ws.map Obs.written = List.replicate fs.length (some (i, b)))

/-! ### Failures -/

/-- 60_exceptions.md R137: under `abort` the first line operation that fails ends the run with its cause: no retry, no further line
operation, and no output line has a defined value (for all eight lines: the spec's own decision D12). -/
def Obligations.AbortHaltsAtTheFirstFailure : Prop :=
  ∀ (s : State) (before rest : List Turn) (t : Turn),
    s.run = .running → s.params.failPolicy = .abort → s.params.linesInfallible = false →
    s.script = before ++ t :: rest → before.all isQuiet = true → isFailing t = true →
    (∀ line : InLine, (readOrder s)[before.length]? = some line →
      exec .sample s = .next { s with
        out := Config.freePattern s.draws, outDefined := noneDefined, draws := s.draws + 1
        run := .halted (.inputReadFailure line) [], phase := .sample, script := rest
        trace := s.trace ++ ((readOrder s).take before.length).map (fun i => .read i (some (inputLevel s i))) ++
          [.read line none] }) ∧
    ∀ (p : Pattern) (line : OutLine), s.phase = .drive p → (writeOrder s)[before.length]? = some line →
      ∃ u ws, exec .drive s = .next u ∧
        u = { s with
          out := u.out, outDefined := noneDefined, draws := s.draws + 2
          run := .halted (.outputWriteFailure line) [], phase := .sample, script := rest
          trace := s.trace ++ ws } ∧
        ws.map Obs.written = ((writeOrder s).take (before.length + 1)).map (fun i => some (i, bitOf p i))

/-- 60_exceptions.md R139, R141: under `hardened` a read that fails for good ends the SAMPLE; the safe-state drive sets every line low
whose write succeeds and leaves the others without a defined value (the spec's own decision D9); the other input lines are not
read, and the run halts with the cause of the read (R147, the spec's own decision D10) and no other: that failures of the safe-state
drive are not among the causes is the MODEL's reading (log 20). -/
def Obligations.PersistentReadFailureDrivesTheSafeState : Prop :=
  ∀ (s : State) (before rest : List Turn) (order safeOrder : Nat) (fails : OutLine → Bool) (line : InLine),
    s.run = .running → s.params.failPolicy = .hardened → s.params.linesInfallible = false →
    s.script = before ++ lineTurns s.params.retryMax order true ++
      (permute safeOrder outLines).flatMap (fun i => lineTurns s.params.retryMax safeOrder (fails i)) ++ rest →
    before.all isQuiet = true → (readOrder s)[before.length]? = some line →
    ∃ u, exec .sample s = .next u ∧ u.run = .halted (.inputReadFailure line) [] ∧ u.phase = .sample ∧
      u.params = s.params ∧ u.inputs = s.inputs ∧ u.script = rest ∧
      (∀ i, observe u i = if fails i then none else some false) ∧
      ∃ ws, u.trace = s.trace ++ ((readOrder s).take before.length).map (fun i => .read i (some (inputLevel s i))) ++
          List.replicate (s.params.retryMax + 1) (.read line none) ++ ws ∧
        ws.map Obs.written =
          (permute safeOrder outLines).flatMap fun i => lineWrites s.params.retryMax (fails i) i false

/-- 60_exceptions.md R140, R141, R147: under `hardened` a DRIVE attempts all eight lines whichever of them fail for good; the run then
halts with the list of those lines, in the order they were met, after a safe-state drive that attempts all eight again and leaves
low exactly the lines whose safe-state write succeeded (the spec's own decisions D9, D10). That the failures of the safe-state drive
are not among the causes is the MODEL's reading (log 20). -/
def Obligations.PersistentWriteFailuresAreAllRecorded : Prop :=
  ∀ (s : State) (p : Pattern) (rest : List Turn) (order safeOrder : Nat) (fails safeFails : OutLine → Bool),
    s.run = .running → s.phase = .drive p → s.params.failPolicy = .hardened → s.params.linesInfallible = false →
    s.script = (permute order outLines).flatMap (fun i => lineTurns s.params.retryMax order (fails i)) ++
      (permute safeOrder outLines).flatMap (fun i => lineTurns s.params.retryMax safeOrder (safeFails i)) ++ rest →
    (∃ i, fails i = true) →
    ∃ u first later, exec .drive s = .next u ∧ u.run = .halted first later ∧
      first :: later = ((permute order outLines).filter fails).map .outputWriteFailure ∧
      u.phase = .sample ∧ u.params = s.params ∧ u.inputs = s.inputs ∧ u.script = rest ∧
      (∀ i, observe u i = if safeFails i then none else some false) ∧
      ∃ ws, u.trace = s.trace ++ ws ∧ ws.map Obs.written =
        (permute order outLines).flatMap (fun i => lineWrites s.params.retryMax (fails i) i (bitOf p i)) ++
          (permute safeOrder outLines).flatMap fun i => lineWrites s.params.retryMax (safeFails i) i false

/-- 60_exceptions.md R135 (the spec's own decision D17): under `LINES_INFALLIBLE` the run state stays `Running`, whatever the environment does. -/
def Obligations.InfallibleLinesNeverHalt : Prop :=
  ∀ s t : State, s.run = .running → s.params.linesInfallible = true → step s = .next t → t.run = .running

/-! ### Halt and reset -/

/-- 60_exceptions.md R142: in `Halted` no instruction executes and the step changes nothing; only a reset leaves it, and keeps nothing
of the old run, the cause included: no output line is defined but those a platform fixes, at its levels (the spec's own decision D3).
Halted as a fault outcome, and a step that takes one turn there, are the MODEL's form (log 16, 17). -/
def Obligations.HaltedEndsOnlyByReset : Prop :=
  ∀ (s : State) (c : Cause) (later : List Cause), s.run = .halted c later →
    (∀ i, exec i s = .fault (.halted c)) ∧
    (hasReset (nextTurn s).moves = false → step s = .fault (.halted c)) ∧
    (hasReset (nextTurn s).moves = true → ∃ u, step s = .next u ∧ u.run = .running ∧ u.phase = .sample ∧
      u.params = s.params ∧ ∀ i b, observe u i = some b →
        bitOf s.params.outResetFixed i = true ∧ b = bitOf s.params.outResetLevel i)

/-- 70_reset_and_hazards.md R160, 95_test_vectors.md P6: a reset can cut a SAMPLE or a DRIVE before any of its line operations; what was
done stays done for the observer, nothing further is attempted, and the device is running at its first step with no output line
defined but those a platform fixes. That reset and power loss are one move and OUT_RESET a parameter are the spec's own decisions
(D21, D3); that the reset ends the operation it stands in, without the line operation of its turn, and that inputs, turns and record
survive it, is the MODEL's reading (log 27). -/
def Obligations.ResetCutsAnyOperation : Prop :=
  ∀ (s : State) (before rest : List Turn) (t : Turn),
    s.run = .running → s.script = before ++ t :: rest → before.all isQuiet = true → t.moves = [.reset] →
    (before.length < 4 → ∃ u, exec .sample s = .next u ∧ u.run = .running ∧ u.phase = .sample ∧
      u.params = s.params ∧ u.inputs = s.inputs ∧ u.outDefined = s.params.outResetFixed ∧ u.script = rest ∧
      u.trace = s.trace ++ ((readOrder s).take before.length).map (fun i => .read i (some (inputLevel s i))) ++
        [.env .reset]) ∧
    ∀ p, s.phase = .drive p → before.length < 8 → ∃ u ws, exec .drive s = .next u ∧ u.run = .running ∧
      u.phase = .sample ∧ u.params = s.params ∧ u.inputs = s.inputs ∧ u.outDefined = s.params.outResetFixed ∧
      u.script = rest ∧ u.trace = s.trace ++ ws ++ [.env .reset] ∧
      ws.map Obs.written = ((writeOrder s).take before.length).map (fun i => some (i, bitOf p i))

/-- 10_state.md R25, R27: at power-on and after every reset the run state is `Running` and the ROM is the literal table, with the same
parameter entries as before. -/
def Obligations.ResetRunsWithTheLiteralTable : Prop :=
  State.reset.run = .running ∧ tableList State.reset.params =
    [Config.t0, 0b10110110#8, Config.t2, Config.t3, Config.t4, Config.t5, Config.t6, Config.t7, Config.t8,
     0b11110000#8, 0b00000000#8, 0b00000000#8, 0b00000000#8, 0b00000000#8, 0b00000000#8, 0b00000000#8] ∧
  ∀ s : State, (deviceReset s).run = .running ∧ tableList (deviceReset s).params = tableList s.params

/-- 10_state.md R26, R28, 70_reset_and_hazards.md R162: at power-on no output line has a defined value and the first operation is a SAMPLE;
after a reset the lines a platform fixes show their levels and no other has a defined value. -/
def Obligations.ResetDefinesNoOutputLine : Prop :=
  State.reset.phase = .sample ∧ (∀ i, observe State.reset i = none) ∧
  ∀ s : State, (deviceReset s).phase = .sample ∧
    ∀ i, observe (deviceReset s) i =
      if bitOf s.params.outResetFixed i then some (bitOf s.params.outResetLevel i) else none

/-! ### ITER -/

/-- 43_control_loop.md R110, R115: where every line operation succeeds and the environment at most sets input lines, an iteration
completes: exactly four line reads, then one ROM read, then eight line writes (and the environment's moves) in the record,
`OUT = T[Address]`, the loop at its top and nothing else changed. Each bit of the Address is its line's level at its own read (R72,
the spec's own decision D5), and with lines that hold during the SAMPLE it is the Address they present, whatever they do during the DRIVE. -/
def Obligations.IterationDrivesTheEntryOfItsAddress : Prop :=
  ∀ s : State, s.run = .running → beginsWith isCalm 12 s.script = true →
    ∃ (a : Addr) (rs ws : List Obs) (order : List OutLine),
      exec .iter s = .next { s with
        out := table s.params a, outDefined := allDefined, phase := loopTop s.phase
        inputs := inputsAfterTurns (s.script.take 12) s.inputs
        script := s.script.drop 12
        trace := s.trace ++ rs ++ [.rom a (table s.params a)] ++ ws } ∧
      (∀ (k : Nat) (i : InLine), (readOrder s)[k]? = some i →
        bitOf a i = sourceLevel s.params.pullLevel
          (inputSource (inputsAfterTurns (s.script.take (k + 1)) s.inputs) i)) ∧
      (beginsWith isQuiet 4 s.script = true → a = presentedAddress s) ∧
      RecordsReads rs ((s.script.take 4).flatMap Turn.moves) ((readOrder s).map fun i => (i, some (bitOf a i))) ∧
      (readOrder s).Perm inLines ∧
      RecordsWrites ws (((s.script.drop 4).take 8).flatMap Turn.moves)
        (order.map fun i => (i, bitOf (table s.params a) i)) ∧
      order.Perm outLines

/-- 43_control_loop.md R110, R111, R114: whatever the environment does, an iteration is its steps one after the other. Where the
SAMPLE gives an Address they are SAMPLE, LOOKUP, DRIVE, and the DRIVE ends the iteration however it ends; where the SAMPLE fails or
is cut by a reset, no LOOKUP and no DRIVE happen and the iteration ends as the SAMPLE did. From the top of the loop a step is the
whole iteration or its SAMPLE (the two granularities are the MODEL's choice, log 3), and that top is where the iteration ends. -/
def Obligations.IterationIsSampleLookupDrive : Prop :=
  ∀ s : State, s.run = .running →
    (s.phase = .iter → step s = exec .iter s) ∧ (s.phase = .sample → step s = exec .sample s) ∧
    (loopTop s.phase = if s.phase = .iter then .iter else .sample) ∧
    ∃ s1, exec .sample s = .next s1 ∧
      ((∃ a s2 s3, s1.phase = .lookup a ∧ s1.run = .running ∧
          exec .lookup s1 = .next s2 ∧ step s1 = .next s2 ∧ s2.phase = .drive (table s.params a) ∧ s2.run = .running ∧
          exec .drive s2 = .next s3 ∧ step s2 = .next s3 ∧ s3.phase = .sample ∧
          exec .iter s = .next { s3 with phase := loopTop s.phase }) ∨
        (s1.phase = .sample ∧ exec .iter s = .next { s1 with phase := loopTop s.phase }))

/-- 43_control_loop.md R113: two iterations whose SAMPLEs give the same Address, however the input lines, failures and retries led to
it, drive the same pattern, whatever the two states were before and however the input lines change during the writes. -/
def Obligations.IterationHasNoMemory : Prop :=
  ∀ (s t s1 t1 : State) (a : Addr), s.run = .running → t.run = .running → s.params = t.params →
    exec .sample s = .next s1 → s1.phase = .lookup a → beginsWith isCalm 8 s1.script = true →
    exec .sample t = .next t1 → t1.phase = .lookup a → beginsWith isCalm 8 t1.script = true →
    ∃ u v, exec .iter s = .next u ∧ exec .iter t = .next v ∧ u.out = v.out ∧ u.outDefined = allDefined ∧
      v.outDefined = allDefined ∧ u.out = table s.params a

/-- 10_state.md R14, R15: the Address and the pattern do not survive an iteration, however it ends. -/
def Obligations.NothingSurvivesAnIteration : Prop :=
  (∀ s u : State, exec .iter s = .next u → u.phase = loopTop s.phase) ∧
  (∀ s u : State, exec .drive s = .next u → u.phase = .sample) ∧
  ∀ s u : State, exec .sample s = .next u → u.phase = .sample ∨ ∃ a, u.phase = .lookup a

/-! ### Whole-machine rules and invariants -/

/-- 10_state.md R12, 42_output_driver.md R100: the device never reads `OUT`, nor the observer's record: states that differ in nothing else
stay so under every instruction and every step. -/
def Obligations.NothingReadsTheOutputs : Prop :=
  ∀ s t : State, SameButOutputs s t →
    (∀ i, OutcomesAgree SameButOutputs (exec i s) (exec i t)) ∧ OutcomesAgree SameButOutputs (step s) (step t)

/-- 20_memory.md R33: there is no write to the ROM: no instruction and no step, whatever the environment does, changes an entry. -/
def Obligations.NothingWritesTheRom : Prop :=
  ∀ s t : State, (step s = .next t ∨ ∃ i, exec i s = .next t) →
    tableList t.params = tableList s.params ∧ t.params = s.params

/-- 42_output_driver.md R105, R106, 43_control_loop.md R115: at the end of every step of a running block the defined output lines all show one
table entry (or all are lines a platform fixes at reset, at its levels, the spec's own decision D3), never a mixture; and the pattern in flight is a
table entry. A line whose write failed (D22) or that was forced from outside (the MODEL's choice, log 8) is not defined. -/
def Obligations.StepKeepsOutputsOneEntry : Prop :=
  ∀ s t : State, OutputInv s → step s = .next t → OutputInv t

/-- The state after reset meets the output invariant. -/
def Obligations.ResetShowsNoMixture : Prop := OutputInv State.reset

/-- 60_exceptions.md R133, R137 to R141, R147: what every halt leaves: never an InvariantFailure, one cause and no defined output line under
`abort` (the spec's own decision D12), every defined line low under `hardened` (D9), the causes listed with no line named twice and one
cause after a read (D10; that the safe-state drive's own failures are not listed is the MODEL's reading, log 20), neither Address nor
pattern. -/
def Obligations.StepKeepsTheHaltReport : Prop :=
  ∀ s t : State, HaltInv s → step s = .next t → HaltInv t

/-- The state after reset meets the halt invariant. -/
def Obligations.ResetHasNoHaltReport : Prop := HaltInv State.reset

/-! ### The printed entries in place -/

/-- 41_program_table.md R82, R90 to R96: with the Address of a printed entry in flight, the row it selects completes with the
literal, and that is the step; and driving such a literal makes the lines the source names high and the others low. -/
def Obligations.PrintedEntriesReadInPlace : Prop :=
  RowReadsInPlace .rom1 (composeAddress false false false true) 0b10110110#8 ∧
  RowReadsInPlace .rom9 (composeAddress true false false true) 0b11110000#8 ∧
  RowReadsInPlace .rom10 (composeAddress true false true false) 0b00000000#8 ∧
  RowReadsInPlace .rom11 (composeAddress true false true true) 0b00000000#8 ∧
  RowReadsInPlace .rom12 (composeAddress true true false false) 0b00000000#8 ∧
  RowReadsInPlace .rom13 (composeAddress true true false true) 0b00000000#8 ∧
  RowReadsInPlace .rom14 (composeAddress true true true false) 0b00000000#8 ∧
  RowReadsInPlace .rom15 (composeAddress true true true true) 0b00000000#8 ∧
  DrivingMakesHigh 0b10110110#8 [1, 2, 4, 5, 7] ∧
  DrivingMakesHigh 0b11110000#8 [4, 5, 6, 7] ∧
  DrivingMakesHigh 0b00000000#8 []
end

