-- ==== Sys2Proof/Laws/Bits.lean ====
section
/-! SUPPORT. The small lemmas of words of lines: what a bit of `setBit`, `weighted` and `composeAddress` is, and when two
words are equal. -/

namespace Sys2Proof.Machine

/-- Two words of lines are equal when every line has the same level in both. -/
theorem eq_of_bitOf_eq {n : Nat} {v w : BitVec n} (h : ∀ i, bitOf v i = bitOf w i) : v = w := by
  apply BitVec.eq_of_getLsbD_eq
  intro i hi
  exact h ⟨i, hi⟩

/-- Setting a line changes that line and no other (20_memory.md R39). -/
@[simp] theorem bitOf_setBit (v : Pattern) (i j : OutLine) (b : Level) :
    bitOf (setBit v i b) j = if j = i then b else bitOf v j := by
  revert v b
  fin_cases i <;> fin_cases j <;> intro v b <;> cases b <;> simp [bitOf, setBit]

/-- Setting a line to the level it has changes nothing. -/
@[simp] theorem setBit_self (v : Pattern) (i : OutLine) : setBit v i (bitOf v i) = v :=
  eq_of_bitOf_eq fun j => by
    rw [bitOf_setBit]
    split
    · next h => rw [h]
    · rfl

@[simp] theorem bitOf_markDefined (v : Pattern) (i j : OutLine) :
    bitOf (markDefined v i) j = if j = i then true else bitOf v j := bitOf_setBit ..

@[simp] theorem bitOf_markUndefined (v : Pattern) (i j : OutLine) :
    bitOf (markUndefined v i) j = if j = i then false else bitOf v j := bitOf_setBit ..

@[simp] theorem bitOf_or {n : Nat} (v w : BitVec n) (i : Fin n) : bitOf (v ||| w) i = (bitOf v i || bitOf w i) := by
  simp [bitOf]

@[simp] theorem bitOf_and {n : Nat} (v w : BitVec n) (i : Fin n) : bitOf (v &&& w) i = (bitOf v i && bitOf w i) := by
  simp [bitOf]

@[simp] theorem bitOf_not {n : Nat} (v : BitVec n) (i : Fin n) : bitOf (~~~v) i = !bitOf v i := by
  simp [bitOf]

@[simp] theorem bitOf_zero {n : Nat} (i : Fin n) : bitOf (0#n) i = false := by
  simp [bitOf]

@[simp] theorem bitOf_allDefined (i : OutLine) : bitOf allDefined i = true := by
  revert i; decide

@[simp] theorem bitOf_noneDefined (i : OutLine) : bitOf noneDefined i = false := by
  revert i; decide

/-- A weighted bit stands at its line's place and nowhere else. -/
@[simp] theorem bitOf_weighted (i j : InLine) (b : Level) : bitOf (weighted i b) j = (b && decide (j = i)) := by
  revert i j b; decide

/-- Line `a_i` is bit `i` of the Address (30_encoding.md R51). -/
theorem bitOf_composeAddress (f : InLine → Level) (i : InLine) :
    bitOf (composeAddress (f 3) (f 2) (f 1) (f 0)) i = f i := by
  fin_cases i <;> simp [composeAddress]

@[simp] theorem bitOf_presentedAddress (s : State) (i : InLine) : bitOf (presentedAddress s) i = inputLevel s i :=
  bitOf_composeAddress (inputLevel s) i

end Sys2Proof.Machine
end

