-- ==== Sys2Proof/Laws/Orders.lean ====
section
/-! SUPPORT. A numbered order of a list holds the same elements. -/

namespace Sys2Proof.Machine

theorem insertAt_perm {α : Type} (x : α) : ∀ (n : Nat) (l : List α), (insertAt n x l).Perm (x :: l)
  | 0, _ => List.Perm.refl _
  | _ + 1, [] => List.Perm.refl _
  | n + 1, y :: l => ((insertAt_perm x n l).cons y).trans (List.Perm.swap x y l)

/-- Every numbered order goes through the same lines, each as often. -/
theorem permute_perm {α : Type} : ∀ (k : Nat) (l : List α), (permute k l).Perm l
  | _, [] => List.Perm.refl _
  | k, x :: l => (insertAt_perm x _ _).trans ((permute_perm (k / (l.length + 1)) l).cons x)

@[simp] theorem length_permute {α : Type} (k : Nat) (l : List α) : (permute k l).length = l.length :=
  (permute_perm k l).length_eq

@[simp] theorem mem_permute {α : Type} (k : Nat) (l : List α) (x : α) : x ∈ permute k l ↔ x ∈ l :=
  (permute_perm k l).mem_iff

theorem nodup_permute {α : Type} {l : List α} (k : Nat) (h : l.Nodup) : (permute k l).Nodup :=
  (permute_perm k l).nodup_iff.mpr h

theorem mem_inLines (i : InLine) : i ∈ inLines := by revert i; decide

theorem mem_outLines (i : OutLine) : i ∈ outLines := by revert i; decide

theorem nodup_inLines : inLines.Nodup := by decide

theorem nodup_outLines : outLines.Nodup := by decide

end Sys2Proof.Machine
end

