-- ==== Sys2Proof/Laws/State.lean ====
section
/-! SUPPORT. One lemma per field per named update of State. -/

namespace Sys2Proof.Machine

@[simp] theorem record_params (e : Obs) (s : State) : (record e s).params = s.params := rfl
@[simp] theorem record_out (e : Obs) (s : State) : (record e s).out = s.out := rfl
@[simp] theorem record_outDefined (e : Obs) (s : State) : (record e s).outDefined = s.outDefined := rfl
@[simp] theorem record_run (e : Obs) (s : State) : (record e s).run = s.run := rfl
@[simp] theorem record_phase (e : Obs) (s : State) : (record e s).phase = s.phase := rfl
@[simp] theorem record_inputs (e : Obs) (s : State) : (record e s).inputs = s.inputs := rfl
@[simp] theorem record_script (e : Obs) (s : State) : (record e s).script = s.script := rfl
@[simp] theorem record_draws (e : Obs) (s : State) : (record e s).draws = s.draws := rfl
@[simp] theorem record_trace (e : Obs) (s : State) : (record e s).trace = s.trace ++ [e] := rfl

@[simp] theorem deviceReset_params (s : State) : (deviceReset s).params = s.params := rfl
@[simp] theorem deviceReset_outDefined (s : State) : (deviceReset s).outDefined = s.params.outResetFixed := rfl
@[simp] theorem deviceReset_run (s : State) : (deviceReset s).run = .running := rfl
@[simp] theorem deviceReset_phase (s : State) : (deviceReset s).phase = .sample := rfl
@[simp] theorem deviceReset_inputs (s : State) : (deviceReset s).inputs = s.inputs := rfl
@[simp] theorem deviceReset_script (s : State) : (deviceReset s).script = s.script := rfl
@[simp] theorem deviceReset_draws (s : State) : (deviceReset s).draws = s.draws + 1 := rfl
@[simp] theorem deviceReset_trace (s : State) : (deviceReset s).trace = s.trace := rfl

@[simp] theorem writeDone_params (i : OutLine) (b : Level) (s : State) : (writeDone i b s).params = s.params := rfl
@[simp] theorem writeDone_out (i : OutLine) (b : Level) (s : State) : (writeDone i b s).out = setBit s.out i b := rfl
@[simp] theorem writeDone_outDefined (i : OutLine) (b : Level) (s : State) : (writeDone i b s).outDefined = markDefined s.outDefined i := rfl
@[simp] theorem writeDone_run (i : OutLine) (b : Level) (s : State) : (writeDone i b s).run = s.run := rfl
@[simp] theorem writeDone_phase (i : OutLine) (b : Level) (s : State) : (writeDone i b s).phase = s.phase := rfl
@[simp] theorem writeDone_inputs (i : OutLine) (b : Level) (s : State) : (writeDone i b s).inputs = s.inputs := rfl
@[simp] theorem writeDone_script (i : OutLine) (b : Level) (s : State) : (writeDone i b s).script = s.script := rfl
@[simp] theorem writeDone_draws (i : OutLine) (b : Level) (s : State) : (writeDone i b s).draws = s.draws := rfl
@[simp] theorem writeDone_trace (i : OutLine) (b : Level) (s : State) : (writeDone i b s).trace = s.trace ++ [.write i b true (setBit s.out i b) (markDefined s.outDefined i)] := rfl

@[simp] theorem writeLost_params (i : OutLine) (b : Level) (s : State) : (writeLost i b s).params = s.params := rfl
@[simp] theorem writeLost_out (i : OutLine) (b : Level) (s : State) : (writeLost i b s).out = setBit s.out i (Config.freeLevel s.draws) := rfl
@[simp] theorem writeLost_outDefined (i : OutLine) (b : Level) (s : State) : (writeLost i b s).outDefined = markUndefined s.outDefined i := rfl
@[simp] theorem writeLost_run (i : OutLine) (b : Level) (s : State) : (writeLost i b s).run = s.run := rfl
@[simp] theorem writeLost_phase (i : OutLine) (b : Level) (s : State) : (writeLost i b s).phase = s.phase := rfl
@[simp] theorem writeLost_inputs (i : OutLine) (b : Level) (s : State) : (writeLost i b s).inputs = s.inputs := rfl
@[simp] theorem writeLost_script (i : OutLine) (b : Level) (s : State) : (writeLost i b s).script = s.script := rfl
@[simp] theorem writeLost_draws (i : OutLine) (b : Level) (s : State) : (writeLost i b s).draws = s.draws + 1 := rfl

@[simp] theorem haltAbort_params (c : Cause) (s : State) : (haltAbort c s).params = s.params := rfl
@[simp] theorem haltAbort_out (c : Cause) (s : State) : (haltAbort c s).out = Config.freePattern s.draws := rfl
@[simp] theorem haltAbort_outDefined (c : Cause) (s : State) : (haltAbort c s).outDefined = noneDefined := rfl
@[simp] theorem haltAbort_run (c : Cause) (s : State) : (haltAbort c s).run = .halted c [] := rfl
@[simp] theorem haltAbort_phase (c : Cause) (s : State) : (haltAbort c s).phase = .sample := rfl
@[simp] theorem haltAbort_inputs (c : Cause) (s : State) : (haltAbort c s).inputs = s.inputs := rfl
@[simp] theorem haltAbort_script (c : Cause) (s : State) : (haltAbort c s).script = s.script := rfl
@[simp] theorem haltAbort_draws (c : Cause) (s : State) : (haltAbort c s).draws = s.draws + 1 := rfl
@[simp] theorem haltAbort_trace (c : Cause) (s : State) : (haltAbort c s).trace = s.trace := rfl

@[simp] theorem haltWith_params (c : Cause) (later : List Cause) (s : State) : (haltWith c later s).params = s.params := rfl
@[simp] theorem haltWith_out (c : Cause) (later : List Cause) (s : State) : (haltWith c later s).out = s.out := rfl
@[simp] theorem haltWith_outDefined (c : Cause) (later : List Cause) (s : State) : (haltWith c later s).outDefined = s.outDefined := rfl
@[simp] theorem haltWith_run (c : Cause) (later : List Cause) (s : State) : (haltWith c later s).run = .halted c later := rfl
@[simp] theorem haltWith_phase (c : Cause) (later : List Cause) (s : State) : (haltWith c later s).phase = .sample := rfl
@[simp] theorem haltWith_inputs (c : Cause) (later : List Cause) (s : State) : (haltWith c later s).inputs = s.inputs := rfl
@[simp] theorem haltWith_script (c : Cause) (later : List Cause) (s : State) : (haltWith c later s).script = s.script := rfl
@[simp] theorem haltWith_draws (c : Cause) (later : List Cause) (s : State) : (haltWith c later s).draws = s.draws := rfl
@[simp] theorem haltWith_trace (c : Cause) (later : List Cause) (s : State) : (haltWith c later s).trace = s.trace := rfl

@[simp] theorem takeTurn_params (s : State) : (takeTurn s).params = s.params := by
  unfold takeTurn; split <;> rfl
@[simp] theorem takeTurn_out (s : State) : (takeTurn s).out = s.out := by
  unfold takeTurn; split <;> rfl
@[simp] theorem takeTurn_outDefined (s : State) : (takeTurn s).outDefined = s.outDefined := by
  unfold takeTurn; split <;> rfl
@[simp] theorem takeTurn_run (s : State) : (takeTurn s).run = s.run := by
  unfold takeTurn; split <;> rfl
@[simp] theorem takeTurn_phase (s : State) : (takeTurn s).phase = s.phase := by
  unfold takeTurn; split <;> rfl
@[simp] theorem takeTurn_inputs (s : State) : (takeTurn s).inputs = s.inputs := by
  unfold takeTurn; split <;> rfl
@[simp] theorem takeTurn_trace (s : State) : (takeTurn s).trace = s.trace := by
  unfold takeTurn; split <;> rfl

/-- What a turn of a listed script is. -/
theorem nextTurn_cons {s : State} {t : Turn} {ts : List Turn} (h : s.script = t :: ts) : nextTurn s = t := by
  simp [nextTurn, h]

/-- What taking a turn of a listed script leaves. -/
theorem takeTurn_cons {s : State} {t : Turn} {ts : List Turn} (h : s.script = t :: ts) :
    takeTurn s = { s with script := ts } := by
  simp [takeTurn, h]

/-- What an input line reads depends on the parameters and the lines alone. -/
theorem inputLevel_congr {s t : State} (hp : t.params = s.params) (hi : t.inputs = s.inputs) (i : InLine) :
    inputLevel t i = inputLevel s i := by
  simp [inputLevel, hp, hi]

end Sys2Proof.Machine
end

