-- ==== Sys2Proof/Laws/Reach.lean ====
section
/-! SUPPORT. What the smallest moves of the machine can do: the moves of a line operation that write no line successfully
(`WeakStep`), all moves short of a reset (`LineStep`), and what a reset leaves. Every operation is a chain of them, and each
fact about chains is proved here once. -/

namespace Sys2Proof.Machine

/-- The smallest moves that define no output line and do not reset the device. -/
inductive WeakStep : State → State → Prop where
  | turn (s : State) : WeakStep s (takeTurn s)
  | setInput (i : InLine) (src : Source) (s : State) :
      WeakStep s (moveEffect (.setInput i src) (record (.env (.setInput i src)) s))
  | force (i : OutLine) (b : Level) (s : State) :
      WeakStep s (moveEffect (.forceOutput i b) (record (.env (.forceOutput i b)) s))
  | read (i : InLine) (r : Option Level) (s : State) : WeakStep s (record (.read i r) s)
  | lost (i : OutLine) (b : Level) (s : State) : WeakStep s (writeLost i b s)

/-- The smallest moves that do not reset the device. -/
inductive LineStep : State → State → Prop where
  | weak {s t : State} : WeakStep s t → LineStep s t
  | done (i : OutLine) (b : Level) (s : State) : LineStep s (writeDone i b s)

/-- A chain of moves that define no output line. -/
abbrev Weak : State → State → Prop := Relation.ReflTransGen WeakStep

/-- A chain of moves without a reset. -/
abbrev Reach : State → State → Prop := Relation.ReflTransGen LineStep

/-- A chain of moves of one kind is a chain of moves of a wider kind. -/
theorem chain_mono {r q : State → State → Prop} (hrq : ∀ s t, r s t → q s t) {s t : State}
    (h : Relation.ReflTransGen r s t) : Relation.ReflTransGen q s t := by
  induction h with
  | refl => exact .refl
  | tail _ h ih => exact ih.tail (hrq _ _ h)

theorem Weak.reach {s t : State} (h : Weak s t) : Reach s t :=
  chain_mono (fun _ _ => .weak) h

/-! ### What a chain keeps -/

theorem WeakStep.keeps {s t : State} (h : WeakStep s t) :
    t.params = s.params ∧ t.run = s.run ∧ t.phase = s.phase := by
  cases h <;> simp [moveEffect]

theorem LineStep.keeps {s t : State} (h : LineStep s t) :
    t.params = s.params ∧ t.run = s.run ∧ t.phase = s.phase := by
  cases h with
  | weak h => exact h.keeps
  | done i b s => simp

/-- Without a reset no line operation changes the ROM, the parameters, the run state or the phase. -/
theorem Reach.keeps {s t : State} (h : Reach s t) :
    t.params = s.params ∧ t.run = s.run ∧ t.phase = s.phase := by
  induction h with
  | refl => exact ⟨rfl, rfl, rfl⟩
  | tail _ h ih =>
    obtain ⟨a, b, c⟩ := h.keeps
    exact ⟨a.trans ih.1, b.trans ih.2.1, c.trans ih.2.2⟩

theorem observe_eq_some {s : State} {i : OutLine} {b : Level} :
    observe s i = some b ↔ bitOf s.outDefined i = true ∧ bitOf s.out i = b := by
  simp [observe]

theorem observe_congr {s t : State} (ho : t.out = s.out) (hd : t.outDefined = s.outDefined) (i : OutLine) :
    observe t i = observe s i := by
  simp [observe, ho, hd]

theorem WeakStep.observe {s t : State} (h : WeakStep s t) {i : OutLine} {b : Level} :
    observe t i = some b → observe s i = some b := by
  simp only [observe_eq_some]
  cases h with
  | turn s => simp
  | setInput => simp [moveEffect]
  | read => simp
  | force j c s =>
    simp only [moveEffect, record_outDefined, record_out, bitOf_markUndefined, bitOf_setBit]
    split <;> simp
  | lost j c s =>
    simp only [writeLost_outDefined, writeLost_out, bitOf_markUndefined, bitOf_setBit]
    split <;> simp

/-- A level seen after a chain that defines no line was already there before it. -/
theorem Weak.observe {s t : State} (h : Weak s t) {i : OutLine} {b : Level} :
    observe t i = some b → observe s i = some b := by
  induction h with
  | refl => exact id
  | tail _ h ih => exact fun hb => ih (h.observe hb)

theorem Weak.shows {s t : State} {p : Pattern} (h : Weak s t) (hs : Shows s p) : Shows t p :=
  fun i b hb => hs i b (h.observe hb)

theorem Weak.showsReset {s t : State} (h : Weak s t) (hs : ShowsReset s) : ShowsReset t := by
  intro i b hb
  rw [h.reach.keeps.1]
  exact hs i b (h.observe hb)

/-- What a successful write leaves: its line at the level, every other line as before (20_memory.md R39). -/
theorem observe_writeDone (i j : OutLine) (b : Level) (s : State) :
    observe (writeDone i b s) j = if j = i then some b else observe s j := by
  unfold observe
  simp only [writeDone_outDefined, writeDone_out, bitOf_markDefined, bitOf_setBit]
  split <;> simp

/-- What a failed write leaves: its line without a defined value, every other line as before (42_output_driver.md R104). -/
theorem observe_writeLost (i j : OutLine) (b : Level) (s : State) :
    observe (writeLost i b s) j = if j = i then none else observe s j := by
  unfold observe
  simp only [writeLost_outDefined, writeLost_out, bitOf_markUndefined, bitOf_setBit]
  split <;> simp

theorem shows_congr {s t : State} {p : Pattern} (ho : t.out = s.out) (hd : t.outDefined = s.outDefined) :
    Shows t p ↔ Shows s p := by
  simp [Shows, observe_congr ho hd]

/-! ### Resets -/

/-- The smallest moves, resets among them. -/
inductive AnyStep : State → State → Prop where
  | line {s t : State} : LineStep s t → AnyStep s t
  | reset (s : State) : AnyStep s (moveEffect .reset (record (.env .reset) s))

/-- A chain of moves whose last reset is followed by moves that define no line. -/
def ResetReach (s t : State) : Prop :=
  ∃ s0, Relation.ReflTransGen AnyStep s s0 ∧ Weak (moveEffect .reset (record (.env .reset) s0)) t

theorem AnyStep.params {s t : State} (h : AnyStep s t) : t.params = s.params := by
  cases h with
  | line h => exact h.keeps.1
  | reset => simp [moveEffect]

theorem ResetReach.of_any {s t u : State} (h : Relation.ReflTransGen AnyStep s t) (h' : ResetReach t u) :
    ResetReach s u := by
  obtain ⟨s0, h1, h2⟩ := h'
  exact ⟨s0, h.trans h1, h2⟩

theorem ResetReach.of_reach {s t u : State} (h : Reach s t) (h' : ResetReach t u) : ResetReach s u :=
  .of_any (chain_mono (fun _ _ => .line) h) h'

/-- What an observer sees right after a reset: the lines a platform fixes, at its levels, and no other. -/
theorem observe_deviceReset (s : State) (i : OutLine) :
    observe (deviceReset s) i =
      if bitOf s.params.outResetFixed i then some (bitOf s.params.outResetLevel i) else none := by
  unfold observe
  simp only [deviceReset, bitOf_or, bitOf_and, bitOf_not]
  split <;> simp_all

theorem deviceReset_showsReset (s : State) : ShowsReset (deviceReset s) := by
  intro i b hb
  rw [observe_deviceReset] at hb
  split at hb
  · next h => exact ⟨h, (Option.some.inj hb).symm⟩
  · cases hb

/-- What a reset leaves (70_reset_and_hazards.md R162): the same ROM and parameters, running, at the top of the loop, no
output line defined but those the platform fixes. -/
theorem ResetReach.keeps {s t : State} (h : ResetReach s t) :
    t.params = s.params ∧ t.run = .running ∧ t.phase = .sample ∧ ShowsReset t := by
  obtain ⟨s0, h1, h2⟩ := h
  have hp : s0.params = s.params := by
    clear h2
    induction h1 with
    | refl => rfl
    | tail _ h ih => exact h.params.trans ih
  obtain ⟨k1, k2, k3⟩ := h2.reach.keeps
  exact ⟨k1.trans hp, k2, k3, h2.showsReset (deviceReset_showsReset (record (.env .reset) s0))⟩

end Sys2Proof.Machine
end

