-- ==== Sys2Proof/Laws/Ops.lean ====
section
/-! SUPPORT. One lemma per shared operation that says once everything it can do. -/

namespace Sys2Proof.Machine

/-! ### The environment's moves -/

theorem hasReset_cons (m : EnvMove) (ms : List EnvMove) : hasReset (m :: ms) = ((m == .reset) || hasReset ms) := rfl

/-- The environment's moves without a reset define no output line. -/
theorem applyMoves_weak : ∀ (ms : List EnvMove) (s : State), hasReset ms = false → Weak s (applyMoves ms s)
  | [], _, _ => .refl
  | m :: ms, s, h => by
    rw [hasReset_cons, Bool.or_eq_false_iff] at h
    have hm : WeakStep s (moveEffect m (record (.env m) s)) := by
      cases m with
      | setInput i src => exact .setInput i src s
      | forceOutput i b => exact .force i b s
      | reset => simp at h
    exact (Relation.ReflTransGen.single hm).trans (applyMoves_weak ms _ h.2)

/-- The environment's moves with a reset among them reset the device. -/
theorem applyMoves_reset (ms : List EnvMove) (s : State) (h : hasReset ms = true) :
    ResetReach s (applyMoves ms s) := by
  induction ms generalizing s with
  | nil => simp [hasReset] at h
  | cons m ms ih =>
    rw [hasReset_cons, Bool.or_eq_true] at h
    have hm : AnyStep s (moveEffect m (record (.env m) s)) := by
      cases m with
      | setInput i src => exact .line (.weak (.setInput i src s))
      | forceOutput i b => exact .line (.weak (.force i b s))
      | reset => exact .reset s
    cases hr : hasReset ms with
    | true => exact .of_any (.single hm) (ih _ hr)
    | false =>
      have he : m = .reset := by simpa [hr] using h
      rw [he]
      exact ⟨s, .refl, applyMoves_weak ms _ hr⟩

/-! ### How a line operation ends -/

/-- What holds of the end of a line operation, end by end. -/
def Ends {α : Type} (good : α → State → Prop) (bad : Cause → State → Prop) (cut : State → Prop) :
    LineResult α → Prop
  | .ok v s => good v s
  | .failed c s => bad c s
  | .reset s => cut s

theorem Ends.mono {α : Type} {good good' : α → State → Prop} {bad bad' : Cause → State → Prop}
    {cut cut' : State → Prop} {r : LineResult α} (h : Ends good bad cut r) (hg : ∀ v s, good v s → good' v s)
    (hb : ∀ c s, bad c s → bad' c s) (hc : ∀ s, cut s → cut' s) : Ends good' bad' cut' r := by
  cases r with
  | ok v s => exact hg v s h
  | failed c s => exact hb c s h
  | reset s => exact hc s h

/-- One attempt: the environment's moves, then the answer, which under `LINES_INFALLIBLE` is `ok`. -/
theorem attempt_ends {α : Type} {act : Bool → State → LineResult α} {s : State} {good : α → State → Prop}
    {bad : Cause → State → Prop} {cut : State → Prop}
    (hact : ∀ ok s', Weak s s' → (ok = false → s.params.linesInfallible = false) → Ends good bad cut (act ok s'))
    (hcut : ∀ s', ResetReach s s' → cut s') : Ends good bad cut (attempt act s) := by
  have ht : WeakStep s (takeTurn s) := .turn s
  unfold attempt
  simp only
  split
  · next h => exact hcut _ (.of_reach (.single (.weak ht)) (applyMoves_reset _ _ h))
  · next h =>
    have hw : Weak s (applyMoves (nextTurn s).moves (takeTurn s)) :=
      .head ht (applyMoves_weak (nextTurn s).moves (takeTurn s) (by simpa using h))
    refine hact _ _ hw fun hok => ?_
    have := hw.reach.keeps.1
    simp_all

/-- One attempted read. -/
theorem attempt_read_ends (i : InLine) (s : State) :
    Ends (fun _ s' => Weak s s')
      (fun c s' => Weak s s' ∧ c = .inputReadFailure i ∧ s.params.linesInfallible = false)
      (fun s' => ResetReach s s') (attempt (readAnswer i) s) :=
  attempt_ends
    (fun ok s' hw hok => by
      cases ok with
      | true => exact hw.tail (.read i _ s')
      | false => exact ⟨hw.tail (.read i none s'), rfl, hok rfl⟩)
    (fun _ h => h)

/-- One attempted write. -/
theorem attempt_write_ends (i : OutLine) (b : Level) (s : State) :
    Ends (fun _ s' => ∃ s0, Weak s s0 ∧ s' = writeDone i b s0)
      (fun c s' => Weak s s' ∧ c = .outputWriteFailure i ∧ s.params.linesInfallible = false ∧ observe s' i = none)
      (fun s' => ResetReach s s') (attempt (writeAnswer i b) s) :=
  attempt_ends
    (fun ok s' hw hok => by
      cases ok with
      | true => exact ⟨s', hw, rfl⟩
      | false => exact ⟨hw.tail (.lost i b s'), rfl, hok rfl, by simp [observe_writeLost]⟩)
    (fun _ h => h)

/-- Retrying keeps what one attempt gives, if failed attempts are chains that define no line. -/
theorem withRetry_ends {α : Type} {op : State → LineResult α} {good : State → α → State → Prop}
    {bad : State → Cause → State → Prop}
    (hop : ∀ s, Ends (good s) (fun c s' => Weak s s' ∧ bad s c s') (fun s' => ResetReach s s') (op s))
    (hgood : ∀ s s0 v s', Weak s s0 → good s0 v s' → good s v s')
    (hbad : ∀ s s0 c s', Weak s s0 → bad s0 c s' → bad s c s') :
    ∀ (n : Nat) (s : State),
      Ends (good s) (fun c s' => Weak s s' ∧ bad s c s') (fun s' => ResetReach s s') (withRetry op n s)
  | 0, s => hop s
  | n + 1, s => by
    have h := hop s
    unfold withRetry
    split
    · next v s' heq => rw [heq] at h; exact h
    · next c s' heq =>
      rw [heq] at h
      exact (withRetry_ends hop hgood hbad n s').mono (fun v t ht => hgood _ _ _ _ h.1 ht)
        (fun c t ht => ⟨h.1.trans ht.1, hbad _ _ _ _ h.1 ht.2⟩) (fun t ht => .of_reach h.1.reach ht)
    · next s' heq => rw [heq] at h; exact h

/-- A read with its retries: it answers, or fails naming its line (never under `LINES_INFALLIBLE`), or a reset cuts it. -/
theorem inRead_ends (i : InLine) (s : State) :
    Ends (fun _ s' => Weak s s')
      (fun c s' => Weak s s' ∧ c = .inputReadFailure i ∧ s.params.linesInfallible = false)
      (fun s' => ResetReach s s') (inRead i s) :=
  withRetry_ends (good := fun s _ s' => Weak s s') (attempt_read_ends i)
    (fun _ _ _ _ h h' => h.trans h') (fun _ _ _ _ h h' => ⟨h'.1, h.reach.keeps.1 ▸ h'.2⟩) _ s

/-- A write with its retries: its line ends at the level, or it fails naming its line (never under `LINES_INFALLIBLE`) and
the line holds no defined value, or a reset cuts it; no other line is defined by it. -/
theorem outWrite_ends (i : OutLine) (b : Level) (s : State) :
    Ends (fun _ s' => ∃ s0, Weak s s0 ∧ s' = writeDone i b s0)
      (fun c s' => Weak s s' ∧ c = .outputWriteFailure i ∧ s.params.linesInfallible = false ∧ observe s' i = none)
      (fun s' => ResetReach s s') (outWrite i b s) :=
  withRetry_ends (good := fun s _ s' => ∃ s0, Weak s s0 ∧ s' = writeDone i b s0) (attempt_write_ends i b)
    (fun _ _ _ _ h ⟨s1, h1, e⟩ => ⟨s1, h.trans h1, e⟩)
    (fun _ _ _ _ h h' => ⟨h'.1, h.reach.keeps.1 ▸ h'.2.1, h'.2.2⟩) _ s

/-! ### The loops over lines -/

/-- The reads of a SAMPLE define no output line; the failure that ends them names one of the lines. -/
theorem readLines_ends : ∀ (l : List InLine) (acc : Addr) (s : State),
    Ends (fun _ s' => Weak s s')
      (fun c s' => Weak s s' ∧ (∃ i ∈ l, c = .inputReadFailure i) ∧ s.params.linesInfallible = false)
      (fun s' => ResetReach s s') (readLines l acc s)
  | [], _, _ => .refl
  | i :: rest, acc, s => by
    have h := inRead_ends i s
    unfold readLines
    split
    · next b s' heq =>
      rw [heq] at h
      have hw : Weak s s' := h
      refine (readLines_ends rest _ s').mono (fun _ t ht => hw.trans ht) (fun c t ht => ?_)
        (fun t ht => .of_reach hw.reach ht)
      obtain ⟨ht, ⟨j, hj, hc⟩, hi⟩ := ht
      exact ⟨hw.trans ht, ⟨j, List.mem_cons_of_mem _ hj, hc⟩, hw.reach.keeps.1 ▸ hi⟩
    · next c s' heq =>
      rw [heq] at h
      exact ⟨h.1, ⟨i, List.mem_cons_self .., h.2.1⟩, h.2.2⟩
    · next s' heq => rw [heq] at h; exact h

/-- The line an observer sees after one successful write and before the next. -/
theorem observe_of_writeDone {s s0 : State} {i j : OutLine} {b c : Level} (h : Weak s s0)
    (hc : observe (writeDone i b s0) j = some c) : if j = i then c = b else observe s j = some c := by
  rw [observe_writeDone] at hc
  split at hc
  · next h => simp_all
  · next hj => simp [hj, h.observe hc]

/-- The writes of a DRIVE: without a reset, each line ends at its bit of the pattern unless it has no defined value, the
failing lines are recorded in order under `hardened`, and the first failure ends the writes under `abort`. -/
theorem writeLines_ends (p : Pattern) : ∀ (l : List OutLine) (causes : List Cause) (s : State),
    Ends
      (fun cs s' => Reach s s' ∧ ∃ lost : List OutLine, lost.Sublist l ∧
        cs = causes ++ lost.map .outputWriteFailure ∧
        (lost ≠ [] → s.params.linesInfallible = false ∧ s.params.failPolicy = .hardened) ∧
        ∀ j b, observe s' j = some b → if j ∈ l then b = bitOf p j else observe s j = some b)
      (fun c s' => Reach s s' ∧ (∃ i ∈ l, c = .outputWriteFailure i) ∧ s.params.linesInfallible = false ∧
        s.params.failPolicy = .abort)
      (fun s' => ResetReach s s') (writeLines p l causes s)
  | [], causes, s => ⟨.refl, [], .slnil, by simp, by simp, by simp⟩
  | i :: rest, causes, s => by
    have h := outWrite_ends i (bitOf p i) s
    unfold writeLines
    split
    · next u s' heq =>
      rw [heq] at h
      obtain ⟨s0, hw, rfl⟩ := h
      have hr : Reach s (writeDone i (bitOf p i) s0) := hw.reach.tail (.done i _ s0)
      refine (writeLines_ends p rest causes _).mono (fun cs t ht => ?_) (fun c t ht => ?_)
        (fun t ht => .of_reach hr ht)
      · obtain ⟨ht, lost, hl, hc, hi, ho⟩ := ht
        refine ⟨hr.trans ht, lost, hl.cons i, hc, hr.keeps.1 ▸ hi, fun j b hb => ?_⟩
        have := ho j b hb
        by_cases hj : j ∈ rest
        · simp_all
        · rw [if_neg hj] at this
          have := observe_of_writeDone hw this
          by_cases hji : j = i
          · subst hji; simpa using this
          · simpa [hj, hji] using this
      · obtain ⟨ht, ⟨j, hj, hc⟩, hi, ha⟩ := ht
        exact ⟨hr.trans ht, ⟨j, List.mem_cons_of_mem _ hj, hc⟩, hr.keeps.1 ▸ hi, hr.keeps.1 ▸ ha⟩
    · next c s' heq =>
      rw [heq] at h
      obtain ⟨hw, rfl, hi, hn⟩ := h
      have hp := hw.reach.keeps.1
      split
      · next ha => exact ⟨hw.reach, ⟨i, List.mem_cons_self .., rfl⟩, hi, hp ▸ ha⟩
      · next ha =>
        refine (writeLines_ends p rest _ s').mono (fun cs t ht => ?_) (fun c t ht => ?_)
          (fun t ht => .of_reach hw.reach ht)
        · obtain ⟨ht, lost, hl, hc, _, ho⟩ := ht
          refine ⟨hw.reach.trans ht, i :: lost, hl.cons_cons i, by simp [hc], fun _ => ⟨hi, hp ▸ ha⟩, fun j b hb => ?_⟩
          have := ho j b hb
          by_cases hj : j ∈ rest
          · simp_all
          · rw [if_neg hj] at this
            by_cases hji : j = i
            · subst hji; simp [hn] at this
            · simpa [hj, hji] using hw.observe this
        · obtain ⟨_, _, _, ha'⟩ := ht
          simp_all
    · next s' heq => rw [heq] at h; exact h

/-- The safe-state drive: without a reset, every line ends low or without a defined value (60_exceptions.md R139, R141). -/
theorem safeLines_ends : ∀ (l : List OutLine) (s : State),
    Ends (fun _ s' => Reach s s' ∧ ∀ j b, observe s' j = some b → if j ∈ l then b = false else observe s j = some b)
      (fun _ _ => False) (fun s' => ResetReach s s') (safeLines l s)
  | [], s => ⟨.refl, by simp⟩
  | i :: rest, s => by
    have h := outWrite_ends i false s
    unfold safeLines
    split
    · next u s' heq =>
      rw [heq] at h
      obtain ⟨s0, hw, rfl⟩ := h
      have hr : Reach s (writeDone i false s0) := hw.reach.tail (.done i _ s0)
      refine (safeLines_ends rest _).mono (fun cs t ht => ⟨hr.trans ht.1, fun j b hb => ?_⟩) (fun _ _ ht => ht)
        (fun t ht => .of_reach hr ht)
      have := ht.2 j b hb
      by_cases hj : j ∈ rest
      · simp_all
      · rw [if_neg hj] at this
        have := observe_of_writeDone hw this
        by_cases hji : j = i
        · subst hji; simpa using this
        · simpa [hj, hji] using this
    · next c s' heq =>
      rw [heq] at h
      obtain ⟨hw, rfl, _, hn⟩ := h
      refine (safeLines_ends rest _).mono (fun cs t ht => ⟨hw.reach.trans ht.1, fun j b hb => ?_⟩) (fun _ _ ht => ht)
        (fun t ht => .of_reach hw.reach ht)
      have := ht.2 j b hb
      by_cases hj : j ∈ rest
      · simp_all
      · rw [if_neg hj] at this
        by_cases hji : j = i
        · subst hji; simp [hn] at this
        · simpa [hj, hji] using hw.observe this
    · next s' heq => rw [heq] at h; exact h

/-! ### Taking a failure -/

/-- Everything taking a failure can do: the abort, or the safe-state drive and the halt, or a reset during that drive. -/
theorem takeFailure_cases (c : Cause) (later : List Cause) (s : State) :
    (s.params.failPolicy = .abort ∧ takeFailure c later s = haltAbort c s) ∨
    (s.params.failPolicy = .hardened ∧ ∃ s', Reach s s' ∧ Shows s' 0b00000000#8 ∧
      takeFailure c later s = haltWith c later s') ∨
    (s.params.failPolicy = .hardened ∧ ResetReach s (takeFailure c later s)) := by
  unfold takeFailure
  cases hp : s.params.failPolicy with
  | abort => simp
  | hardened =>
    right
    have h := safeLines_ends (writeOrder s) s
    unfold haltSafe
    simp only [true_and]
    split
    · next u s' heq =>
      rw [heq] at h
      refine .inl ⟨s', h.1, fun i b hb => ?_, rfl⟩
      have := h.2 i b hb
      rw [if_pos (by simp [writeOrder, mem_outLines])] at this
      simp [this]
    · next c' s' heq => rw [heq] at h; exact h.elim
    · next s' heq => rw [heq] at h; exact .inr h

/-! ### The three steps of an iteration -/

/-- Everything a SAMPLE can do. -/
theorem sampleOp_cases (s : State) :
    (∃ a s', Weak s s' ∧ sampleOp s = { s' with phase := .lookup a }) ∨
    (∃ i s', Weak s s' ∧ s.params.linesInfallible = false ∧
      sampleOp s = takeFailure (.inputReadFailure i) [] s') ∨
    ResetReach s (sampleOp s) := by
  have h := readLines_ends (readOrder s) 0#4 s
  unfold sampleOp
  split
  · next a s' heq => rw [heq] at h; exact .inl ⟨a, s', h, rfl⟩
  · next c s' heq =>
    rw [heq] at h
    obtain ⟨hw, ⟨i, _, rfl⟩, hi⟩ := h
    exact .inr (.inl ⟨i, s', hw, hi, rfl⟩)
  · next s' heq => rw [heq] at h; exact .inr (.inr h)

/-- The ROM has an entry for every Address, the one the table gives. -/
theorem romEntry_addr (p : Params) (a : Addr) : romEntry p a.toNat = some (table p a) := by
  obtain ⟨a⟩ := a
  fin_cases a <;> rfl

/-- A LOOKUP of an Address reads its entry and changes nothing else: it cannot fail (20_memory.md R32). -/
theorem lookupOp_addr (a : Addr) (s : State) :
    lookupOp a.toNat s = { s with phase := .drive (table s.params a), trace := s.trace ++ [.rom a (table s.params a)] } := by
  simp only [lookupOp, romEntry_addr, record, BitVec.ofNat_toNat, BitVec.setWidth_eq]

/-- Everything a DRIVE can do. -/
theorem driveOp_cases (p : Pattern) (s : State) :
    (∃ s', Reach s s' ∧ Shows s' p ∧ driveOp p s = { s' with phase := .sample }) ∨
    (∃ (i : OutLine) (lost : List OutLine) (s' : State), Reach s s' ∧ (i :: lost).Nodup ∧
      s.params.linesInfallible = false ∧ (s.params.failPolicy = .abort → lost = []) ∧
      driveOp p s = takeFailure (.outputWriteFailure i) (lost.map .outputWriteFailure) s') ∨
    ResetReach s (driveOp p s) := by
  have h := writeLines_ends p (writeOrder s) [] s
  have hn : (writeOrder s).Nodup := nodup_permute _ nodup_outLines
  unfold driveOp
  split
  · next s' heq =>
    rw [heq] at h
    obtain ⟨hr, lost, _, _, _, ho⟩ := h
    refine .inl ⟨s', hr, fun i b hb => ?_, rfl⟩
    have := ho i b hb
    rwa [if_pos (by simp [writeOrder, mem_outLines])] at this
  · next c later s' heq =>
    rw [heq] at h
    obtain ⟨hr, lost, hl, hc, hi, _⟩ := h
    cases lost with
    | nil => simp at hc
    | cons i lost =>
      simp only [List.nil_append, List.map_cons, List.cons.injEq] at hc
      obtain ⟨rfl, rfl⟩ := hc
      have hi := hi (by simp)
      exact .inr (.inl ⟨i, lost, s', hr, hl.nodup hn, hi.1, by simp [hi.2], rfl⟩)
  · next c s' heq =>
    rw [heq] at h
    obtain ⟨hr, ⟨i, _, rfl⟩, hi, _⟩ := h
    exact .inr (.inl ⟨i, [], s', hr, by simp, hi, by simp, rfl⟩)
  · next s' heq => rw [heq] at h; exact .inr (.inr h)

end Sys2Proof.Machine
end

