-- ==== Sys2Proof/Laws/Step.lean ====
section
/-! SUPPORT. What the decoder gives the step, what each instruction does in a running machine, and everything an iteration and a
step can do. -/

namespace Sys2Proof.Machine

/-- Decoding a row's byte gives the row, whatever `aaaa` is and whatever follows. -/
theorem decode_encodeWith (aaaa : Addr) (i : Instr) (rest : List Byte) :
    decode (encodeWith aaaa i ++ rest) = .ok i rest := by
  have h : ∀ a : Addr, (encodeWith a i).length = 1 ∧ decode (encodeWith a i) = .ok i [] := by
    cases i <;> decide
  obtain ⟨hl, hd⟩ := h aaaa
  match he : encodeWith aaaa i, hl with
  | [b], _ =>
    rw [he] at hd
    simp only [decode, List.cons_append, List.nil_append] at hd ⊢
    split at hd <;> simp_all

/-- Every Address selects a row. -/
theorem rowOfAddr_isSome : ∀ a : Addr, (rowOfAddr a).isSome := by decide

/-- What a running instruction does: the operation of its row. -/
@[simp] theorem exec_sample {s : State} (h : s.run = .running) : exec .sample s = .next (sampleOp s) := by
  simp [exec, execSample, whenRunning, h]

@[simp] theorem exec_iter {s : State} (h : s.run = .running) : exec .iter s = .next (iterOp s) := by
  simp [exec, execIter, whenRunning, h]

@[simp] theorem exec_lookup {s : State} {a : Addr} (h : s.run = .running) (hp : s.phase = .lookup a) :
    exec .lookup s = .next (lookupOp a.toNat s) := by
  simp [exec, execLookup, h, hp]

@[simp] theorem exec_drive {s : State} {p : Pattern} (h : s.run = .running) (hp : s.phase = .drive p) :
    exec .drive s = .next (driveOp p s) := by
  simp [exec, execDrive, h, hp]

/-- The row of an Address does what LOOKUP does with that Address (30_encoding.md R55). -/
theorem exec_rowOfAddr {s : State} {a : Addr} {i : Instr} (h : s.run = .running) (hi : rowOfAddr a = some i) :
    exec i s = .next (lookupOp a.toNat s) := by
  obtain ⟨a⟩ := a
  fin_cases a <;> obtain rfl := (Option.some.inj hi).symm <;>
    simp [exec, whenRunning, h, execRom0, execRom1, execRom2, execRom3, execRom4, execRom5, execRom6, execRom7,
      execRom8, execRom9, execRom10, execRom11, execRom12, execRom13, execRom14, execRom15]

/-- Nothing executes in Halted (60_exceptions.md R142). -/
theorem exec_halted {s : State} {c : Cause} {later : List Cause} (h : s.run = .halted c later) (i : Instr) :
    exec i s = .fault (.halted c) := by
  cases i <;> simp [exec, execIter, execSample, execLookup, execDrive, whenRunning, h, execRom0, execRom1, execRom2,
    execRom3, execRom4, execRom5, execRom6, execRom7, execRom8, execRom9, execRom10, execRom11, execRom12, execRom13,
    execRom14, execRom15]

theorem step_halted {s : State} {c : Cause} {later : List Cause} (h : s.run = .halted c later) :
    step s = haltedStep c s := by
  simp [step, h]

/-- What a running step does, phase by phase. -/
theorem step_running {s : State} (h : s.run = .running) :
    step s = .next (match s.phase with
      | .iter => iterOp s
      | .sample => sampleOp s
      | .lookup a => lookupOp a.toNat s
      | .drive p => driveOp p s) := by
  cases hp : s.phase with
  | iter =>
    have hd : decode (fetchBytes s) = .ok .iter [] := by simp only [fetchBytes, hp]; decide
    simp [step, h, hd]
  | sample =>
    have hd : decode (fetchBytes s) = .ok .sample [] := by simp only [fetchBytes, hp]; decide
    simp [step, h, hd]
  | drive p =>
    have hd : decode (fetchBytes s) = .ok .drive [] := by
      have : decode [0x30#8] = .ok .drive [] := by decide
      rw [fetchBytes, hp]
      exact this
    simp [step, h, hd, hp]
  | lookup a =>
    obtain ⟨i, hi⟩ := Option.isSome_iff_exists.mp (rowOfAddr_isSome a)
    have hd : decode (fetchBytes s) = .ok i [] := by
      unfold rowOfAddr at hi
      simp [fetchBytes, hp, sequencerByte, decode, hi]
    simp [step, h, hd, exec_rowOfAddr h hi]

/-- The three steps an iteration is made of, as far as it gets. -/
theorem iterOp_of_sample {s : State} {a : Addr} (h : (sampleOp s).phase = .lookup a) :
    iterOp s = { driveOp (table s.params a) (lookupOp a.toNat (sampleOp s)) with phase := loopTop s.phase } ∧
      (sampleOp s).params = s.params ∧ (sampleOp s).run = s.run := by
  have hk : (sampleOp s).params = s.params ∧ (sampleOp s).run = s.run := by
    rcases sampleOp_cases s with ⟨a', s', hw, he⟩ | ⟨i, s', hw, _, he⟩ | hr
    · rw [he]; exact ⟨hw.reach.keeps.1, hw.reach.keeps.2.1⟩
    · rcases takeFailure_cases (.inputReadFailure i) [] s' with ⟨_, e⟩ | ⟨_, _, _, _, e⟩ | ⟨_, e⟩
      · rw [he, e] at h; simp at h
      · rw [he, e] at h; simp at h
      · rw [he, e.keeps.2.2.1] at h; simp at h
    · rw [hr.keeps.2.2.1] at h; simp at h
  refine ⟨?_, hk⟩
  have hl : (lookupOp a.toNat (sampleOp s)).phase = .drive (table s.params a) := by
    rw [lookupOp_addr, hk.1]
  simp only [iterOp, h, hl]

/-- An iteration whose SAMPLE gives no Address ends with it. -/
theorem iterOp_of_no_sample {s : State} (h : ∀ a, (sampleOp s).phase ≠ .lookup a) (hd : ∀ p, (sampleOp s).phase ≠ .drive p) :
    iterOp s = { sampleOp s with phase := loopTop s.phase } := by
  unfold iterOp
  simp only

end Sys2Proof.Machine
end

