-- ==== Sys2Proof/Laws/Quiet.lean ====
section
/-! SUPPORT. What the operations do, exactly, when the environment lets every line operation succeed and does nothing else. -/

namespace Sys2Proof.Machine

/-- One attempt at a listed turn without moves. -/
theorem attempt_plain {α : Type} {act : Bool → State → LineResult α} {s : State} {t : Turn} {ts : List Turn}
    (h : s.script = t :: ts) (hm : t.moves = []) :
    attempt act s = act (t.ok || s.params.linesInfallible) { s with script := ts } := by
  simp [attempt, nextTurn_cons h, takeTurn_cons h, hm, hasReset, applyMoves]

theorem isQuiet_iff {t : Turn} : isQuiet t = true ↔ t.moves = [] ∧ t.ok = true := by
  simp [isQuiet]

theorem isFailing_iff {t : Turn} : isFailing t = true ↔ t.moves = [] ∧ t.ok = false := by
  simp [isFailing]

/-- A script that begins with turns of a kind, taken apart. -/
theorem beginsWith_succ {kind : Turn → Bool} {n : Nat} {script : List Turn}
    (h : beginsWith kind (n + 1) script = true) :
    ∃ t ts, script = t :: ts ∧ kind t = true ∧ beginsWith kind n ts = true := by
  cases script with
  | nil => simp [beginsWith] at h
  | cons t ts => exact ⟨t, ts, rfl, by simp_all [beginsWith], by simp_all [beginsWith]⟩

theorem withRetry_ok {α : Type} {op : State → LineResult α} {s s' : State} {v : α} (n : Nat) (h : op s = .ok v s') :
    withRetry op n s = .ok v s' := by
  cases n <;> simp [withRetry, h]

/-- A read at a quiet turn: the level, and one read in the record. -/
theorem inRead_quiet {s : State} {t : Turn} {ts : List Turn} (h : s.script = t :: ts) (hq : isQuiet t = true)
    (i : InLine) : inRead i s = .ok (inputLevel s i)
      { s with script := ts, trace := s.trace ++ [.read i (some (inputLevel s i))] } := by
  rw [isQuiet_iff] at hq
  refine withRetry_ok _ ?_
  simp [attempt_plain h hq.1, hq.2, readAnswer, record, inputLevel]

/-- A write at a quiet turn: the line at the level, and one write in the record. -/
theorem outWrite_quiet {s : State} {t : Turn} {ts : List Turn} (h : s.script = t :: ts) (hq : isQuiet t = true)
    (i : OutLine) (b : Level) : outWrite i b s = .ok () (writeDone i b { s with script := ts }) := by
  rw [isQuiet_iff] at hq
  refine withRetry_ok _ ?_
  simp [attempt_plain h hq.1, hq.2, writeAnswer]

/-- Quiet reads: every line's weighted bit is in the Address, every read in the record, nothing else changed. -/
theorem readLines_quiet : ∀ (l : List InLine) (acc : Addr) (s : State), beginsWith isQuiet l.length s.script = true →
    readLines l acc s = .ok (l.foldl (fun a i => a ||| weighted i (inputLevel s i)) acc)
      { s with
        script := s.script.drop l.length
        trace := s.trace ++ l.map fun i => .read i (some (inputLevel s i)) }
  | [], acc, s, _ => by simp [readLines]
  | i :: rest, acc, s, h => by
    obtain ⟨t, ts, hs, hq, hr⟩ := beginsWith_succ h
    unfold readLines
    rw [inRead_quiet hs hq i]
    simp only
    rw [readLines_quiet rest _ _ hr]
    simp [hs, inputLevel]

theorem bitOf_foldl_weighted (f : InLine → Level) : ∀ (l : List InLine) (acc : Addr) (i : InLine),
    bitOf (l.foldl (fun a i => a ||| weighted i (f i)) acc) i = (bitOf acc i || (decide (i ∈ l) && f i))
  | [], acc, i => by simp
  | j :: rest, acc, i => by
    rw [List.foldl_cons, bitOf_foldl_weighted f rest]
    by_cases h : i = j
    · subst h; cases f i <;> simp
    · simp [h]

/-- In whatever order the lines are read, the Address is the one they present. -/
theorem foldl_weighted_order (s : State) (k : Nat) :
    (permute k inLines).foldl (fun a i => a ||| weighted i (inputLevel s i)) 0#4 = presentedAddress s :=
  eq_of_bitOf_eq fun i => by simp [bitOf_foldl_weighted, mem_inLines]

/-- SAMPLE at quiet turns (40_address_sampler.md R70). -/
theorem sampleOp_quiet {s : State} (h : beginsWith isQuiet 4 s.script = true) :
    sampleOp s = { s with
      phase := .lookup (presentedAddress s)
      script := s.script.drop 4
      trace := s.trace ++ (readOrder s).map fun i => .read i (some (inputLevel s i)) } := by
  have hl : (readOrder s).length = 4 := by simp [readOrder, inLines]
  unfold sampleOp
  rw [readLines_quiet _ _ _ (by rwa [hl])]
  simp only [hl]
  rw [readOrder, foldl_weighted_order]

/-- Quiet writes: each line ends at its bit of the pattern, the lines not in the list as before; one write each in the
record. -/
theorem writeLines_quiet (p : Pattern) : ∀ (l : List OutLine) (causes : List Cause) (s : State),
    beginsWith isQuiet l.length s.script = true →
    ∃ (out outDefined : Pattern) (ws : List Obs),
      writeLines p l causes s = .ok causes
        { s with out := out, outDefined := outDefined, script := s.script.drop l.length, trace := s.trace ++ ws } ∧
      (∀ i, bitOf out i = if i ∈ l then bitOf p i else bitOf s.out i) ∧
      (∀ i, bitOf outDefined i = (decide (i ∈ l) || bitOf s.outDefined i)) ∧
      ws.map Obs.written = l.map fun i => some (i, bitOf p i)
  | [], causes, s, _ => ⟨s.out, s.outDefined, [], by simp [writeLines], by simp, by simp, rfl⟩
  | i :: rest, causes, s, h => by
    obtain ⟨t, ts, hs, hq, hr⟩ := beginsWith_succ h
    obtain ⟨out, marks, ws, he, ho, hd, hw⟩ :=
      writeLines_quiet p rest causes (writeDone i (bitOf p i) { s with script := ts }) hr
    refine ⟨out, marks,
      .write i (bitOf p i) true (setBit s.out i (bitOf p i)) (markDefined s.outDefined i) :: ws, ?_, ?_, ?_, ?_⟩
    · unfold writeLines
      rw [outWrite_quiet hs hq]
      simp only
      rw [he]
      simp [hs, writeDone, record]
    · intro j
      rw [ho j]
      by_cases hj : j ∈ rest
      · simp [hj]
      · by_cases hji : j = i
        · subst hji; simp [hj]
        · simp [hj, hji]
    · intro j
      rw [hd j]
      by_cases hji : j = i
      · subst hji; simp
      · simp [hji]
    · simp [hw, Obs.written]

/-- DRIVE at quiet turns (42_output_driver.md R100): `OUT = p`, every line defined, eight writes in the record. -/
theorem driveOp_quiet (p : Pattern) {s : State} (h : beginsWith isQuiet 8 s.script = true) :
    ∃ ws : List Obs, driveOp p s = { s with
        out := p, outDefined := allDefined, phase := .sample, script := s.script.drop 8, trace := s.trace ++ ws } ∧
      ws.map Obs.written = (writeOrder s).map fun i => some (i, bitOf p i) := by
  have hl : (writeOrder s).length = 8 := by simp [writeOrder, outLines]
  have hm : ∀ i, i ∈ writeOrder s := fun i => by simp [writeOrder, mem_outLines]
  obtain ⟨out, marks, ws, he, ho, hd, hw⟩ := writeLines_quiet p (writeOrder s) [] s (by rwa [hl])
  obtain rfl : out = p := eq_of_bitOf_eq fun i => by simp [ho, hm]
  obtain rfl : marks = allDefined := eq_of_bitOf_eq fun i => by simp [hd, hm]
  refine ⟨ws, ?_, hw⟩
  unfold driveOp
  rw [he]
  simp [hl]

end Sys2Proof.Machine
end

