-- ==== Sys2Proof/Laws/Calm.lean ====
section
/-! SUPPORT. What the operations do, exactly, when every line operation succeeds and the environment at most sets input lines. -/

namespace Sys2Proof.Machine

/-- Records put together. -/
theorem RecordsReads.append {ws ws' : List Obs} {ms ms' : List EnvMove} {rs rs' : List (InLine × Option Level)}
    (h : RecordsReads ws ms rs) (h' : RecordsReads ws' ms' rs') : RecordsReads (ws ++ ws') (ms ++ ms') (rs ++ rs') := by
  obtain ⟨h1, h2, h3⟩ := h
  obtain ⟨g1, g2, g3⟩ := h'
  refine ⟨by simp [h1, g1], by simp [h2, g2], ?_⟩
  simp only [List.length_append]
  omega

theorem RecordsWrites.append {ws ws' : List Obs} {ms ms' : List EnvMove} {rs rs' : List (OutLine × Level)}
    (h : RecordsWrites ws ms rs) (h' : RecordsWrites ws' ms' rs') : RecordsWrites (ws ++ ws') (ms ++ ms') (rs ++ rs') := by
  obtain ⟨h1, h2, h3⟩ := h
  obtain ⟨g1, g2, g3⟩ := h'
  refine ⟨by simp [h1, g1], by simp [h2, g2], ?_⟩
  simp only [List.length_append]
  omega

theorem filterMap_moved_env (ms : List EnvMove) : (ms.map Obs.env).filterMap Obs.moved = ms := by
  induction ms <;> simp_all [Obs.moved]

theorem filterMap_answered_env (ms : List EnvMove) : (ms.map Obs.env).filterMap Obs.answered = [] := by
  simp [List.filterMap_eq_nil_iff, Obs.answered]

theorem filterMap_written_env (ms : List EnvMove) : (ms.map Obs.env).filterMap Obs.written = [] := by
  simp [List.filterMap_eq_nil_iff, Obs.written]

/-- The moves of a turn and then one read. -/
theorem recordsReads_turn (ms : List EnvMove) (i : InLine) (answer : Option Level) :
    RecordsReads (ms.map .env ++ [.read i answer]) ms [(i, answer)] := by
  refine ⟨?_, ?_, by simp⟩ <;> rw [List.filterMap_append]
  · rw [filterMap_moved_env]; exact List.append_nil ms
  · rw [filterMap_answered_env]; rfl

/-- The moves of a turn and then one write. -/
theorem recordsWrites_turn (ms : List EnvMove) (i : OutLine) (b : Level) (ok : Bool) (out marks : Pattern) :
    RecordsWrites (ms.map .env ++ [.write i b ok out marks]) ms [(i, b)] := by
  refine ⟨?_, ?_, by simp⟩ <;> rw [List.filterMap_append]
  · rw [filterMap_moved_env]; exact List.append_nil ms
  · rw [filterMap_written_env]; rfl

theorem isCalm_of_isQuiet {t : Turn} (h : isQuiet t = true) : isCalm t = true := by
  rw [isQuiet_iff] at h
  simp [isCalm, h.1, h.2]

/-- A script that begins with `m + n` turns of a kind, cut after the first `m`. -/
theorem beginsWith_add {kind : Turn → Bool} {m n : Nat} {script : List Turn} (h : beginsWith kind (m + n) script = true) :
    beginsWith kind m script = true ∧ beginsWith kind n (script.drop m) = true := by
  simp only [beginsWith, Bool.and_eq_true, decide_eq_true_eq, List.length_drop, List.all_eq_true] at *
  obtain ⟨h1, h2⟩ := h
  refine ⟨⟨by omega, fun t ht => h2 t ?_⟩, by omega, fun t ht => h2 t ?_⟩ <;> rw [List.take_add] <;> simp [ht]

theorem inputsAfterTurns_add (m n : Nat) (script : List Turn) (lines : InputLines) :
    inputsAfterTurns (script.take (m + n)) lines =
      inputsAfterTurns ((script.drop m).take n) (inputsAfterTurns (script.take m) lines) := by
  simp [inputsAfterTurns, List.take_add]

/-- Moves that only set input lines set them, are recorded, and do nothing else. -/
theorem applyMoves_calm : ∀ (ms : List EnvMove), ms.all isSetInput = true → hasReset ms = false ∧ ∀ s : State,
    applyMoves ms s = { s with inputs := inputsAfterMoves ms s.inputs, trace := s.trace ++ ms.map .env }
  | [], _ => ⟨rfl, fun s => by simp [applyMoves, inputsAfterMoves]⟩
  | .setInput i src :: ms, h => by
    obtain ⟨h1, h2⟩ := applyMoves_calm ms (by simpa [isSetInput] using h)
    refine ⟨by simpa [hasReset] using h1, fun s => ?_⟩
    rw [applyMoves, h2]
    simp [moveEffect, record, inputsAfterMoves]
  | .forceOutput _ _ :: _, h => by simp [isSetInput] at h
  | .reset :: _, h => by simp [isSetInput] at h

/-- The state a calm turn leaves to the line operation. -/
def afterCalm (t : Turn) (ts : List Turn) (s : State) : State :=
  { s with script := ts, inputs := inputsAfterMoves t.moves s.inputs, trace := s.trace ++ t.moves.map .env }

/-- One attempt at a listed calm turn. -/
theorem attempt_calm {α : Type} {act : Bool → State → LineResult α} {s : State} {t : Turn} {ts : List Turn}
    (h : s.script = t :: ts) (hc : isCalm t = true) : attempt act s = act true (afterCalm t ts s) := by
  simp only [isCalm, Bool.and_eq_true] at hc
  obtain ⟨h1, h2⟩ := applyMoves_calm t.moves hc.1
  simp [attempt, nextTurn_cons h, takeTurn_cons h, h1, h2, hc.2, afterCalm]

/-- A read at a calm turn: the level the line has once the turn's moves are made. -/
theorem inRead_calm {s : State} {t : Turn} {ts : List Turn} (h : s.script = t :: ts) (hc : isCalm t = true) (i : InLine) :
    inRead i s = .ok (inputLevel (afterCalm t ts s) i)
      (record (.read i (some (inputLevel (afterCalm t ts s) i))) (afterCalm t ts s)) := by
  refine withRetry_ok _ ?_
  rw [attempt_calm h hc]
  rfl

/-- A write at a calm turn: the line at the level. -/
theorem outWrite_calm {s : State} {t : Turn} {ts : List Turn} (h : s.script = t :: ts) (hc : isCalm t = true) (i : OutLine)
    (b : Level) : outWrite i b s = .ok () (writeDone i b (afterCalm t ts s)) := by
  refine withRetry_ok _ ?_
  rw [attempt_calm h hc]
  rfl

/-- Calm reads: each line's bit is its level at its own read; the moves and the reads are the record. -/
theorem readLines_calm : ∀ (l : List InLine) (acc : Addr) (s : State), beginsWith isCalm l.length s.script = true → l.Nodup →
    (∀ i ∈ l, bitOf acc i = false) →
    ∃ (a : Addr) (tr : List Obs), readLines l acc s = .ok a { s with
        script := s.script.drop l.length
        inputs := inputsAfterTurns (s.script.take l.length) s.inputs
        trace := s.trace ++ tr } ∧
      (∀ i, i ∉ l → bitOf a i = bitOf acc i) ∧
      (∀ (k : Nat) (i : InLine), l[k]? = some i → bitOf a i =
        sourceLevel s.params.pullLevel (inputSource (inputsAfterTurns (s.script.take (k + 1)) s.inputs) i)) ∧
      RecordsReads tr ((s.script.take l.length).flatMap Turn.moves) (l.map fun i => (i, some (bitOf a i)))
  | [], acc, s, _, _, _ => ⟨acc, [], by simp [readLines, inputsAfterTurns], by simp, by simp, by simp [RecordsReads]⟩
  | i :: rest, acc, s, h, hn, hz => by
    obtain ⟨t, ts, hs, hc, hr⟩ := beginsWith_succ h
    rw [List.nodup_cons] at hn
    have hv : inputLevel (afterCalm t ts s) i =
        sourceLevel s.params.pullLevel (inputSource (inputsAfterMoves t.moves s.inputs) i) := rfl
    generalize hb : inputLevel (afterCalm t ts s) i = b at hv
    obtain ⟨a, tr, e, ho, hi, hrec⟩ := readLines_calm rest (acc ||| weighted i b) (record (.read i (some b)) (afterCalm t ts s))
      hr hn.2 fun j hj => by
        have : j ≠ i := by rintro rfl; exact hn.1 hj
        simp [this, hz j (List.mem_cons_of_mem _ hj)]
    have hai : bitOf a i = b := by rw [ho i hn.1]; simp [hz i]
    refine ⟨a, (t.moves.map .env ++ [.read i (some b)]) ++ tr, ?_, fun j hj => ?_, fun k j hk => ?_, ?_⟩
    · unfold readLines
      rw [inRead_calm hs hc, hb]
      simp only
      rw [e]
      simp [hs, inputsAfterTurns, record, afterCalm]
    · simp only [List.mem_cons, not_or] at hj
      rw [ho j hj.2]
      simp [hj.1]
    · cases k with
      | zero =>
        obtain rfl : i = j := by simpa using hk
        rw [hai, hv]
        simp [hs, inputsAfterTurns]
      | succ k =>
        rw [hi k j (by simpa using hk)]
        simp [hs, inputsAfterTurns, record, afterCalm]
    · have := (recordsReads_turn t.moves i (some b)).append hrec
      simpa [hs, hai, record, afterCalm] using this

/-- SAMPLE at calm turns (40_address_sampler.md R70, R72). -/
theorem sampleOp_calm {s : State} (h : beginsWith isCalm 4 s.script = true) :
    ∃ (a : Addr) (tr : List Obs), sampleOp s = { s with
        phase := .lookup a
        inputs := inputsAfterTurns (s.script.take 4) s.inputs
        script := s.script.drop 4
        trace := s.trace ++ tr } ∧
      (∀ (k : Nat) (i : InLine), (readOrder s)[k]? = some i → bitOf a i =
        sourceLevel s.params.pullLevel (inputSource (inputsAfterTurns (s.script.take (k + 1)) s.inputs) i)) ∧
      RecordsReads tr ((s.script.take 4).flatMap Turn.moves) ((readOrder s).map fun i => (i, some (bitOf a i))) := by
  have hl : (readOrder s).length = 4 := by simp [readOrder, inLines]
  obtain ⟨a, tr, e, _, hi, hr⟩ := readLines_calm (readOrder s) 0#4 s (by rwa [hl]) (nodup_permute _ nodup_inLines) (by simp)
  rw [hl] at e hr
  exact ⟨a, tr, by rw [sampleOp, e], hi, hr⟩

/-- Calm writes: each line ends at its bit of the pattern, the lines not in the list as before; each write shows the lines written
so far at their bits and the others as they were; the moves and the writes are the record. -/
theorem writeLines_calm (p : Pattern) : ∀ (l : List OutLine) (causes : List Cause) (s : State),
    beginsWith isCalm l.length s.script = true → l.Nodup →
    ∃ (out outDefined : Pattern) (ws : List Obs),
      writeLines p l causes s = .ok causes
        { s with
          out := out, outDefined := outDefined, script := s.script.drop l.length
          inputs := inputsAfterTurns (s.script.take l.length) s.inputs, trace := s.trace ++ ws } ∧
      (∀ i, bitOf out i = if i ∈ l then bitOf p i else bitOf s.out i) ∧
      (∀ i, bitOf outDefined i = (decide (i ∈ l) || bitOf s.outDefined i)) ∧
      RecordsWrites ws ((s.script.take l.length).flatMap Turn.moves) (l.map fun i => (i, bitOf p i)) ∧
      ∀ (k : Nat) (e : Obs), (ws.filter fun e => e.written.isSome)[k]? = some e →
        (∀ i, i ∉ l → e.shows i = observe s i) ∧
        ∀ (n : Nat) (i : OutLine), l[n]? = some i → e.shows i = if k < n then observe s i else some (bitOf p i)
  | [], causes, s, _, _ =>
    ⟨s.out, s.outDefined, [], by simp [writeLines, inputsAfterTurns], by simp, by simp, by simp [RecordsWrites], by simp⟩
  | i :: rest, causes, s, h, hn => by
    obtain ⟨t, ts, hs, hc, hr⟩ := beginsWith_succ h
    rw [List.nodup_cons] at hn
    obtain ⟨out, marks, ws, he, ho, hd, hw, hsh⟩ :=
      writeLines_calm p rest causes (writeDone i (bitOf p i) (afterCalm t ts s)) hr hn.2
    let ev : Obs := .write i (bitOf p i) true (setBit s.out i (bitOf p i)) (markDefined s.outDefined i)
    have hob : ∀ j, observe (writeDone i (bitOf p i) (afterCalm t ts s)) j =
        if j = i then some (bitOf p i) else observe s j := fun j => observe_writeDone i j _ _
    have hev : ∀ j, ev.shows j = observe (writeDone i (bitOf p i) (afterCalm t ts s)) j := fun j => rfl
    refine ⟨out, marks, (t.moves.map .env ++ [ev]) ++ ws, ?_, fun j => ?_, fun j => ?_, ?_, fun k e hk => ?_⟩
    · unfold writeLines
      rw [outWrite_calm hs hc]
      simp only
      rw [he]
      simp [hs, writeDone, record, afterCalm, inputsAfterTurns, ev]
    · rw [ho j]
      by_cases hj : j ∈ rest
      · simp [hj]
      · by_cases hji : j = i
        · subst hji; simp [hj]
        · simp [hj, hji, afterCalm]
    · rw [hd j]
      by_cases hji : j = i
      · subst hji; simp
      · simp [hji, afterCalm]
    · have := (recordsWrites_turn t.moves i (bitOf p i) true (setBit s.out i (bitOf p i)) (markDefined s.outDefined i)).append hw
      simpa [hs, afterCalm, ev] using this
    · have hf : ((t.moves.map Obs.env ++ [ev]) ++ ws).filter (fun e => e.written.isSome) =
          ev :: ws.filter (fun e => e.written.isSome) := by
        have hm : (t.moves.map Obs.env).filter (fun e => e.written.isSome) = [] := by
          simp [List.filter_eq_nil_iff, Obs.written]
        simp only [List.filter_append, hm]
        rfl
      rw [hf] at hk
      have hne : ∀ (n : Nat) (j : OutLine), rest[n]? = some j → j ≠ i := by
        rintro n j hj rfl
        exact hn.1 (List.mem_of_getElem? hj)
      cases k with
      | zero =>
        obtain rfl : ev = e := by simpa using hk
        refine ⟨fun j hj => ?_, fun n j hj => ?_⟩
        · simp only [List.mem_cons, not_or] at hj
          rw [hev, hob, if_neg hj.1]
        · rw [hev, hob]
          cases n with
          | zero => simp at hj; simp [hj]
          | succ n => simp [hne n j (by simpa using hj)]
      | succ k =>
        obtain ⟨h1, h2⟩ := hsh k e (by simpa using hk)
        refine ⟨fun j hj => ?_, fun n j hj => ?_⟩
        · simp only [List.mem_cons, not_or] at hj
          rw [h1 j hj.2, hob, if_neg hj.1]
        · cases n with
          | zero =>
            obtain rfl : i = j := by simpa using hj
            rw [h1 i hn.1, hob]
            simp
          | succ n =>
            have hj' : rest[n]? = some j := by simpa using hj
            rw [h2 n j hj', hob, if_neg (hne n j hj')]
            simp

/-- DRIVE at calm turns (42_output_driver.md R100, R103, R105): `OUT = p`, every line defined, each line at its old level until its
own write; the moves and eight writes are the record. -/
theorem driveOp_calm (p : Pattern) {s : State} (h : beginsWith isCalm 8 s.script = true) :
    ∃ ws : List Obs, driveOp p s = { s with
        out := p, outDefined := allDefined, phase := .sample, script := s.script.drop 8
        inputs := inputsAfterTurns (s.script.take 8) s.inputs, trace := s.trace ++ ws } ∧
      RecordsWrites ws ((s.script.take 8).flatMap Turn.moves) ((writeOrder s).map fun i => (i, bitOf p i)) ∧
      ∀ (k : Nat) (e : Obs), (ws.filter fun e => e.written.isSome)[k]? = some e →
        ∀ (n : Nat) (i : OutLine), (writeOrder s)[n]? = some i →
          e.shows i = if k < n then observe s i else some (bitOf p i) := by
  have hl : (writeOrder s).length = 8 := by simp [writeOrder, outLines]
  have hm : ∀ i, i ∈ writeOrder s := fun i => by simp [writeOrder, mem_outLines]
  obtain ⟨out, marks, ws, he, ho, hd, hw, hsh⟩ :=
    writeLines_calm p (writeOrder s) [] s (by rwa [hl]) (nodup_permute _ nodup_outLines)
  obtain rfl : out = p := eq_of_bitOf_eq fun i => by simp [ho, hm]
  obtain rfl : marks = allDefined := eq_of_bitOf_eq fun i => by simp [hd, hm]
  rw [hl] at he hw
  exact ⟨ws, by rw [driveOp, he], hw, fun k e hk => (hsh k e hk).2⟩

end Sys2Proof.Machine
end

