-- ==== Sys2Proof/Laws/PerInstr.lean ====
section
/-! SUPPORT. The family of statements made for every instruction: its encoding decodes to it. -/

namespace Sys2Proof.Laws.RoundTrip

open Sys2Proof.Machine

/-- The instruction is well formed, and its encoding, whatever the ignored bits are and whatever follows, decodes to it. -/
def Statement (i : Instr) : Prop :=
  i.wf = true ∧ ∀ (aaaa : Addr) (rest : List Byte), decode (encodeWith aaaa i ++ rest) = .ok i rest

theorem iter : Statement .iter := ⟨rfl, fun a r => decode_encodeWith a _ r⟩
theorem sample : Statement .sample := ⟨rfl, fun a r => decode_encodeWith a _ r⟩
theorem lookup : Statement .lookup := ⟨rfl, fun a r => decode_encodeWith a _ r⟩
theorem drive : Statement .drive := ⟨rfl, fun a r => decode_encodeWith a _ r⟩
theorem rom0 : Statement .rom0 := ⟨rfl, fun a r => decode_encodeWith a _ r⟩
theorem rom1 : Statement .rom1 := ⟨rfl, fun a r => decode_encodeWith a _ r⟩
theorem rom2 : Statement .rom2 := ⟨rfl, fun a r => decode_encodeWith a _ r⟩
theorem rom3 : Statement .rom3 := ⟨rfl, fun a r => decode_encodeWith a _ r⟩
theorem rom4 : Statement .rom4 := ⟨rfl, fun a r => decode_encodeWith a _ r⟩
theorem rom5 : Statement .rom5 := ⟨rfl, fun a r => decode_encodeWith a _ r⟩
theorem rom6 : Statement .rom6 := ⟨rfl, fun a r => decode_encodeWith a _ r⟩
theorem rom7 : Statement .rom7 := ⟨rfl, fun a r => decode_encodeWith a _ r⟩
theorem rom8 : Statement .rom8 := ⟨rfl, fun a r => decode_encodeWith a _ r⟩
theorem rom9 : Statement .rom9 := ⟨rfl, fun a r => decode_encodeWith a _ r⟩
theorem rom10 : Statement .rom10 := ⟨rfl, fun a r => decode_encodeWith a _ r⟩
theorem rom11 : Statement .rom11 := ⟨rfl, fun a r => decode_encodeWith a _ r⟩
theorem rom12 : Statement .rom12 := ⟨rfl, fun a r => decode_encodeWith a _ r⟩
theorem rom13 : Statement .rom13 := ⟨rfl, fun a r => decode_encodeWith a _ r⟩
theorem rom14 : Statement .rom14 := ⟨rfl, fun a r => decode_encodeWith a _ r⟩
theorem rom15 : Statement .rom15 := ⟨rfl, fun a r => decode_encodeWith a _ r⟩

end Sys2Proof.Laws.RoundTrip
end

