-- ==== Sys2Proof/Tests/Slice0.lean ====
section
/-! SUPPORT. The model's own tests, with their expected results taken from 95_test_vectors.md or worked out from the rules, and for
every statement with hypotheses a witness: a concrete state and operands that meet them all together. -/

namespace Sys2Proof.Tests

open Sys2Proof.Machine

/-! ### Helpers: the test table, stimuli and small states -/

/-- TEST TABLE of 95_test_vectors.md section 3, under `abort`. -/
def tt : Params :=
  { t0 := 0b00000001#8, t2 := 0b00000010#8, t3 := 0b00000100#8, t4 := 0b00001000#8, t5 := 0b00010000#8
    t6 := 0b00100000#8, t7 := 0b01000000#8, t8 := 0b10000000#8, outResetFixed := 0#8, outResetLevel := 0#8
    pullLevel := true, failPolicy := .abort, retryMax := 2, linesInfallible := false }

/-- The same under `hardened`, with a retry bound. -/
def hard (n : Nat) : Params := { tt with failPolicy := .hardened, retryMax := n }

/-- The same on a platform that fixes lines 0 to 3 at reset, at 0101; the upper bits of the level mean nothing. -/
def pinned : Params := { tt with outResetFixed := 0b00001111#8, outResetLevel := 0b11110101#8 }

/-- A stimulus `a3a2a1a0`. -/
def stim (a3 a2 a1 a0 : Bool) : InputLines :=
  { a0 := .driven a0, a1 := .driven a1, a2 := .driven a2, a3 := .driven a3 }

/-- No line connected. -/
def loose : InputLines := { a0 := .unconnected, a1 := .unconnected, a2 := .unconnected, a3 := .unconnected }

/-- A running state with every output line low. -/
def demo (p : Params) (lines : InputLines) (phase : Phase) (script : List Turn) : State :=
  { params := p, out := 0#8, outDefined := allDefined, run := .running, phase := phase, inputs := lines
    script := script, draws := 1, trace := [] }

/-- The same with other outputs. -/
def withOut (s : State) (out : Pattern) (marks : Pattern) : State := { s with out := out, outDefined := marks }

/-- Quiet turns. -/
def quiet (n : Nat) : List Turn := List.replicate n (plainTurn true 0)

/-- A quiet turn with an order number. -/
def ordered (k : Nat) : Turn := plainTurn true k

/-- A failing turn. -/
def failing : Turn := plainTurn false 0

/-- A turn with one move. -/
def moving (m : EnvMove) : Turn := { moves := [m], ok := true, order := 0 }

/-- What a next state says. -/
def look {α : Type} (o : Host.Outcome State Fault Refusal) (f : State → α) : Option α :=
  match o with
  | .next s => some (f s)
  | .fault _ => none
  | .refused _ => none

/-- The output lines, `o0` first. -/
def pins (s : State) : List (Option Level) := outLines.map (observe s)

/-- How many line operations the record holds. -/
def lineOps (s : State) : Nat :=
  s.trace.countP fun e => match e with
    | .read _ _ => true
    | .write _ _ _ _ _ => true
    | .env _ => false
    | .rom _ _ => false

/-! ### Well-formedness -/

/-- The test table is a table of the device. -/
theorem test_wf_table : tableWf (tableList tt) = true := by decide

/-- R97: fifteen entries are no table. -/
theorem test_wf_table_short : tableLengthOk ((tableList tt).take 15) = false := by decide

/-- R97: seventeen entries are no table. -/
theorem test_wf_table_long : tableWf (tableList tt ++ [0#8]) = false := by decide

/-- 95_test_vectors.md section 1: entry 1 with its bits in the other order is not the device's. -/
theorem test_wf_table_entry1 : tableLiteralsOk ((tableList tt).set 1 0b01101101#8) = false := by decide

/-- 95_test_vectors.md section 2.2: entry 9 with its bits in the other order is not the device's. -/
theorem test_wf_table_entry9 : tableWf ((tableList tt).set 9 0b00001111#8) = false := by decide

/-- R96: entry 15 is not all high. -/
theorem test_wf_table_entry15 : tableWf ((tableList tt).set 15 0b11111111#8) = false := by decide

/-- The last word that names a row, and the first that names none. -/
theorem test_wf_word : wordWf 0x4F#8 = true ∧ wordWf 0x50#8 = false ∧ wordWf 0xFF#8 = false := by decide

/-- The decoder refuses the same words. -/
theorem test_wf_word_decode : ∀ b : Byte, (decodeByte b).isSome = wordWf b := by decide +kernel

/-! ### Decoding: words written out from 30_encoding.md R55, `a3 a2 a1 a0` in bits 3 to 0 -/

theorem test_decode_rom0 : decode [0b00000000#8] = .ok .rom0 [] := by decide
theorem test_decode_rom1 : decode [0b00000001#8] = .ok .rom1 [] := by decide
theorem test_decode_rom2 : decode [0b00000010#8] = .ok .rom2 [] := by decide
theorem test_decode_rom3 : decode [0b00000011#8] = .ok .rom3 [] := by decide
theorem test_decode_rom4 : decode [0b00000100#8] = .ok .rom4 [] := by decide
theorem test_decode_rom5 : decode [0b00000101#8] = .ok .rom5 [] := by decide
theorem test_decode_rom6 : decode [0b00000110#8] = .ok .rom6 [] := by decide
theorem test_decode_rom7 : decode [0b00000111#8] = .ok .rom7 [] := by decide
theorem test_decode_rom8 : decode [0b00001000#8] = .ok .rom8 [] := by decide
theorem test_decode_rom9 : decode [0b00001001#8] = .ok .rom9 [] := by decide
theorem test_decode_rom10 : decode [0b00001010#8] = .ok .rom10 [] := by decide
theorem test_decode_rom11 : decode [0b00001011#8] = .ok .rom11 [] := by decide
theorem test_decode_rom12 : decode [0b00001100#8] = .ok .rom12 [] := by decide
theorem test_decode_rom13 : decode [0b00001101#8] = .ok .rom13 [] := by decide
theorem test_decode_rom14 : decode [0b00001110#8] = .ok .rom14 [] := by decide
theorem test_decode_rom15 : decode [0b00001111#8] = .ok .rom15 [] := by decide

/-- The SEQ rows: the model's words (log 2), `aaaa` low and `aaaa` high. -/
theorem test_decode_sample : decode [0b00010000#8] = .ok .sample [] ∧ decode [0b00011111#8] = .ok .sample [] := by decide
theorem test_decode_lookup : decode [0b00100000#8] = .ok .lookup [] ∧ decode [0b00101111#8] = .ok .lookup [] := by decide
theorem test_decode_drive : decode [0b00110000#8] = .ok .drive [] ∧ decode [0b00111111#8] = .ok .drive [] := by decide
theorem test_decode_iter : decode [0b01000000#8] = .ok .iter [] ∧ decode [0b01001111#8] = .ok .iter [] := by decide

/-- The table's own numbering of a word. -/
theorem test_decodeTableWord : decodeTableWord 4 9 = some .rom9 ∧ decodeTableWord 8 0x10 = some .sample ∧
    decodeTableWord 4 0x50 = none ∧ decodeTableWord 4 256 = none := by decide

/-- The Address's row, by 30_encoding.md R55. -/
theorem test_rowOfAddr : rowOfAddr 9#4 = some .rom9 ∧ rowOfAddr 6#4 = some .rom6 := by decide

/-- A placed word runs, from reset. -/
theorem test_reset_runs_rom9 :
    look (step (State.reset.withFetchWord 4 9)) State.phase = some (.drive 0b11110000#8) := rfl

/-! ### SAMPLE -/

/-- 95_test_vectors.md section 2.1: all 16 input combinations, in four different orders of the reads. -/
theorem test_sample_all : ∀ a3 a2 a1 a0 : Bool, ∀ k ∈ [0, 5, 10, 23],
    look (exec .sample (demo tt (stim a3 a2 a1 a0) .sample (ordered k :: quiet 3))) State.phase =
      some (.lookup (BitVec.ofNat 4 (8 * a3.toNat + 4 * a2.toNat + 2 * a1.toNat + a0.toNat))) := by decide +kernel

/-- 95_test_vectors.md section 2.1, a failing read under `abort`: the third read, line 2, fails. -/
theorem test_sample_abort :
    look (exec .sample (demo tt (stim false false false true) .sample (quiet 2 ++ [failing])))
      (fun s => (s.run, pins s, lineOps s, s.phase)) =
      some (.halted (.inputReadFailure 2) [], List.replicate 8 none, 3, .sample) := rfl

/-! ### LOOKUP and the ADDR4 rows -/

/-- 95_test_vectors.md section 2.2 and S5. -/
theorem test_lookup_9 : look (exec .lookup (demo tt loose (.lookup 9#4) [])) (fun s => (s.phase, s.trace)) =
    some (.drive 0b11110000#8, [.rom 9#4 0b11110000#8]) := rfl

/-- 95_test_vectors.md section 2.2: every row gives the entry of its index, with the TEST TABLE's parameters. -/
theorem test_rom_rows :
    [Instr.rom0, .rom1, .rom2, .rom3, .rom4, .rom5, .rom6, .rom7, .rom8, .rom9, .rom10, .rom11, .rom12, .rom13, .rom14,
      .rom15].map (fun i => look (exec i (demo tt loose .sample [])) State.phase) =
    [0b00000001#8, 0b10110110#8, 0b00000010#8, 0b00000100#8, 0b00001000#8, 0b00010000#8, 0b00100000#8, 0b01000000#8,
      0b10000000#8, 0b11110000#8, 0#8, 0#8, 0#8, 0#8, 0#8, 0#8].map (fun p => some (.drive p)) := rfl

/-- LOOKUP has no operand where no SAMPLE came before. -/
theorem test_lookup_no_operand : exec .lookup (demo tt loose .sample []) = .refused .noOperand := rfl

/-! ### DRIVE -/

/-- 95_test_vectors.md S4: lines 1, 2, 4, 5, 7 high, from outputs without a defined value, in two orders of the writes. -/
theorem test_drive_b6 : ∀ k ∈ [0, 40319],
    look (exec .drive (withOut (demo tt loose (.drive 0b10110110#8) (ordered k :: quiet 7)) 0x5A#8 noneDefined)) pins =
      some ([false, true, true, false, true, true, false, true].map some) := by decide +kernel

/-- The turns of one pass over the output lines in the order numbered 0, in which one line never succeeds. -/
def allBut (line : OutLine) : List Turn := (permute 0 outLines).map fun i => plainTurn (i != line) 0

/-- 95_test_vectors.md section 2.3, a failing write under `hardened` without retries: line 3 never succeeds; the others are
written high, then low, and `OUT` = `0b0000x000`. -/
theorem test_drive_hardened :
    look (exec .drive (demo (hard 0) loose (.drive 0b11111111#8) (allBut 3 ++ allBut 3)))
      (fun s => (s.run, s.outDefined, s.trace.map Obs.written)) =
      some (.halted (.outputWriteFailure 3) [], 0b11110111#8,
        (permute 0 outLines).map (fun i => some (i, true)) ++ (permute 0 outLines).map (fun i => some (i, false))) := by
  decide +kernel

/-- DRIVE has no operand where no LOOKUP came before. -/
theorem test_drive_no_operand : exec .drive (demo tt loose .sample []) = .refused .noOperand := rfl

/-! ### ITER, failures, reset -/

/-- 95_test_vectors.md S5 and section 2.4: four reads, eight writes, outputs 4 to 7 high. -/
theorem test_iter_9 :
    look (exec .iter (demo tt (stim true false false true) .iter (quiet 12))) (fun s => (s.out, s.outDefined, lineOps s, s.phase)) =
      some (0b11110000#8, allDefined, 12, .iter) := by decide +kernel

/-- 95_test_vectors.md P5 iteration 2: line 7, the last here, fails for good in the DRIVE and in the safe-state drive; 24 line
operations. -/
theorem test_iter_hardened :
    look (exec .iter (demo (hard 2) (stim false false false true) .sample
        (quiet 11 ++ List.replicate 3 failing ++ quiet 7 ++ List.replicate 3 failing)))
      (fun s => (s.run, s.outDefined, lineOps s)) =
      some (.halted (.outputWriteFailure 7) [], 0b01111111#8, 24) := by decide +kernel

/-- 95_test_vectors.md P5 iteration 1: a read fails once and then succeeds; five reads, eight writes, nothing reported. -/
theorem test_iter_transient :
    look (exec .iter (demo (hard 2) (stim false false false true) .sample (quiet 2 ++ [failing] ++ quiet 10)))
      (fun s => (s.run, s.out, lineOps s)) = some (.running, 0b10110110#8, 13) := by decide +kernel

/-- 95_test_vectors.md P3: `a3` rises before its read (Address 9) or after it (Address 1); the order numbered 17 reads `a3` first. -/
theorem test_sample_p3 :
    look (exec .sample (demo tt (stim false false false true) .sample
      [moving (.setInput 0 (.driven true)), plainTurn true 0, plainTurn true 0, moving (.setInput 3 (.driven true))]))
      State.phase = some (.lookup 9#4) ∧
    look (exec .sample (demo tt (stim false false false true) .sample
      [ordered 17, moving (.setInput 3 (.driven true)), plainTurn true 0, plainTurn true 0]))
      State.phase = some (.lookup 1#4) := by decide +kernel

/-- 95_test_vectors.md section 2.6 and P6: a reset in the middle of the writes; no output defined, running, nothing kept. -/
theorem test_drive_reset :
    look (exec .drive (demo tt loose (.drive 0b10000000#8) (quiet 3 ++ [moving .reset])))
      (fun s => (s.run, pins s, s.phase, lineOps s)) = some (.running, List.replicate 8 none, .sample, 3) := rfl

/-- The state P4 ends in. -/
def haltedDemo (script : List Turn) : State :=
  { demo tt loose .sample script with run := .halted (.outputWriteFailure 2) [], outDefined := noneDefined }

/-- 95_test_vectors.md P4: "no line operation ever again until reset". -/
theorem test_halted : step (haltedDemo (quiet 1)) = .fault (.halted (.outputWriteFailure 2)) := rfl

/-- 95_test_vectors.md section 2.6: a reset ends the halt and forgets the cause. -/
theorem test_halted_reset : look (step (haltedDemo [moving .reset])) State.run = some .running := rfl

/-! ### Witnesses: for every statement with hypotheses, states and operands that meet them all together -/

/-- A sampling state with the Address 9 presented and enough quiet turns. -/
def sampling : State := demo tt (stim true false false true) .sample (quiet 16)

/-- A driving state with a pattern in flight; the inputs change before its first write and before its last. -/
def driving : State :=
  withOut (demo tt loose (.drive 0b10110110#8)
    (moving (.setInput 0 (.driven true)) :: quiet 6 ++ moving (.setInput 3 (.driven false)) :: quiet 8)) 0b11110000#8 allDefined

theorem witness_StepRunsTheDecodedRow :
    sampling.run = .running ∧ decode (fetchBytes sampling) = .ok .sample [] ∧
    driving.run = .running ∧ decode (fetchBytes driving) = .ok .drive [] ∧
    (demo tt loose (.lookup 0#4) []).run = .running ∧ decode (fetchBytes (demo tt loose (.lookup 0#4) [])) = .ok .rom0 [] ∧
    decode (fetchBytes (demo tt loose (.lookup 15#4) [])) = .ok .rom15 [] ∧
    decode (fetchBytes (demo tt loose .iter [])) = .ok .iter [] := by decide

theorem witness_PlacedWordRunsNext :
    sampling.run = .running ∧ decodeTableWord 4 0 = some .rom0 ∧ decodeTableWord 4 15 = some .rom15 ∧
    decodeTableWord 8 0x10 = some .sample ∧ decodeTableWord 8 0x2F = some .lookup ∧ decodeTableWord 8 0x30 = some .drive ∧
    decodeTableWord 8 0x4F = some .iter := by decide

theorem witness_SampleComposesThePresentedAddress :
    sampling.run = .running ∧ beginsWith isQuiet 4 sampling.script = true ∧ presentedAddress sampling = 9#4 := by decide

/-- The environment raises `a3` before the last read; the first and the last read have their place in the order. -/
theorem witness_SampleReadsEachLineAtItsInstant :
    let s := demo tt (stim false false false true) .sample (quiet 3 ++ [moving (.setInput 3 (.driven true))])
    s.run = .running ∧ beginsWith isCalm 4 s.script = true ∧ (readOrder s)[0]? = some 0 ∧ (readOrder s)[3]? = some 3 := by
  decide

theorem witness_ChangingInputsCanMixInEveryWay : sampling.run = .running := rfl

/-- 40_address_sampler.md R72: from 0111 to 1000 in the turn before the third read, lines 1 and 2 read first: the old `a1` and
`a2` with the new `a0` and `a3`, Address 1110. -/
theorem test_mixture :
    readOrder (demo tt loose .sample [ordered 2]) = [1, 2, 0, 3] ∧
    look (exec .sample (demo tt (stim false true true true) .sample
      [ordered 2, plainTurn true 0,
        { moves := setAllInputs (stim true false false false), ok := true, order := 0 }, plainTurn true 0]))
      State.phase = some (.lookup 0b1110#4) := by decide +kernel

/-- `a3` first, then the others; and the output lines from the last to the first. -/
theorem witness_EveryOrderOfLinesCanOccur :
    let s := demo tt loose .sample (ordered 17 :: quiet 3)
    let t := demo tt loose (.drive 0b10110110#8) (ordered 40319 :: quiet 7)
    ([3, 0, 1, 2].Perm inLines ∧ (nextTurn s).order = 17 ∧ readOrder s = [3, 0, 1, 2] ∧ s.run = .running ∧
      beginsWith isCalm 4 s.script = true) ∧
    ([7, 6, 5, 4, 3, 2, 1, 0].Perm outLines ∧ (nextTurn t).order = 40319 ∧ writeOrder t = [7, 6, 5, 4, 3, 2, 1, 0] ∧
      t.run = .running ∧ t.phase = .drive 0b10110110#8 ∧ beginsWith isCalm 8 t.script = true) := by decide +kernel

/-- With the last output line defined before and after. -/
theorem witness_CompletedSampleDefinesNoOutput :
    sampling.run = .running ∧ exec .sample sampling = .next (sampleOp sampling) ∧
    (sampleOp sampling).phase = .lookup 9#4 ∧ observe (sampleOp sampling) 7 = some false :=
  ⟨rfl, rfl, rfl, rfl⟩

theorem witness_UnconnectedInputsReadThePullLevel :
    let s := demo tt loose .sample (quiet 4)
    s.run = .running ∧ beginsWith isQuiet 4 s.script = true ∧ (∀ i, inputSource s.inputs i = .unconnected) ∧
    s.params.pullLevel = true ∧ (demo { tt with pullLevel := false } loose .sample (quiet 4)).params.pullLevel = false := by
  decide

/-- For the statements of the ADDR4 rows: a running state; and states that drive the literals. -/
theorem witness_PrintedRowsReadTheirLiterals :
    sampling.run = .running ∧ driving.run = .running ∧ driving.phase = .drive 0b10110110#8 ∧
    beginsWith isCalm 8 driving.script = true ∧
    ∀ p ∈ [0b11110000#8, 0b00000000#8], (demo tt loose (.drive p) (quiet 8)).phase = .drive p ∧
      (demo tt loose (.drive p) (quiet 8)).run = .running ∧
      beginsWith isCalm 8 (demo tt loose (.drive p) (quiet 8)).script = true := by decide

/-- A running state with parameters of its own. -/
theorem witness_OpenRowsReadTheirParameters : sampling.run = .running ∧ sampling.params.t0 = 0b00000001#8 := ⟨rfl, rfl⟩

theorem witness_LookupReadsTheEntryOfItsAddress :
    (demo tt loose (.lookup 0#4) []).run = .running ∧ (demo tt loose (.lookup 0#4) []).phase = .lookup 0#4 ∧
    (demo tt loose (.lookup 15#4) []).phase = .lookup 15#4 := by decide

theorem witness_TableHasSixteenEntries :
    (romEntry tt 15).isSome = true ∧ 15 < 16 ∧ romEntry tt 16 = none := by decide

theorem witness_IndexOutsideTheTableHalts : 16 ≤ 16 ∧ (lookupOp 16 sampling).run = .halted .invariantFailure [] :=
  ⟨Nat.le_refl 16, rfl⟩

theorem witness_DriveSetsEveryLineFromThePattern :
    driving.run = .running ∧ driving.phase = .drive 0b10110110#8 ∧ beginsWith isCalm 8 driving.script = true ∧
    driving.out = 0b11110000#8 := by decide

theorem witness_DriveTwiceChangesNoLevel :
    driving.run = .running ∧ driving.phase = .drive 0b10110110#8 ∧ beginsWith isCalm 16 driving.script = true := by decide

/-- Old and new pattern of 95_test_vectors.md section 2.3; the first and the last line written. -/
theorem witness_TransitionalOutputsMixOldAndNewOnce :
    driving.run = .running ∧ driving.phase = .drive 0b10110110#8 ∧ beginsWith isCalm 8 driving.script = true ∧
    (writeOrder driving)[0]? = some 0 ∧ (writeOrder driving)[7]? = some 7 := by decide

/-- The level forced before the first write, and before the last one on a line already written. -/
theorem witness_ForcedLevelLastsUntilTheWrite :
    let s := demo tt loose (.drive 0b10110110#8) (moving (.forceOutput 7 false) :: quiet 7)
    let t := demo tt loose (.drive 0b10110110#8) (quiet 7 ++ moving (.forceOutput 0 true) :: [])
    (s.run = .running ∧ s.phase = .drive 0b10110110#8 ∧ s.script = [] ++ moving (.forceOutput 7 false) :: quiet 7 ∧
      ([] : List Turn).all isCalm = true ∧ 0 < 8 ∧ beginsWith isCalm 7 (quiet 7) = true ∧
      7 ∉ (writeOrder s).take 0) ∧
    (t.run = .running ∧ t.phase = .drive 0b10110110#8 ∧ t.script = quiet 7 ++ moving (.forceOutput 0 true) :: [] ∧
      (quiet 7).all isCalm = true ∧ (quiet 7).length < 8 ∧ beginsWith isCalm (7 - (quiet 7).length) [] = true ∧
      0 ∈ (writeOrder t).take (quiet 7).length) := by decide

/-- No failure, as many as the bound allows, and one more. -/
theorem witness_RetryUsesTheFirstSuccess :
    let s := fun script => demo (hard 2) (stim false false true false) .sample script
    (hard 2).failPolicy = .hardened ∧ (hard 2).linesInfallible = false ∧
    (([] : List Turn).length ≤ (hard 2).retryMax ∧ ([] : List Turn).all isFailing = true ∧ isQuiet (ordered 0) = true ∧
      (s (quiet 1)).script = [] ++ ordered 0 :: []) ∧
    ([failing, failing].length ≤ (hard 2).retryMax ∧ [failing, failing].all isFailing = true ∧
      (s [failing, failing, ordered 0]).script = [failing, failing] ++ ordered 0 :: []) ∧
    ([failing, failing, failing].length = (hard 2).retryMax + 1 ∧ [failing, failing, failing].all isFailing = true ∧
      (s [failing, failing, failing]).script = [failing, failing, failing] ++ []) := by decide

/-- The first and the last read fail; the first and the last write fail. -/
theorem witness_AbortHaltsAtTheFirstFailure :
    let s := fun ph n => demo tt (stim false false false true) ph (quiet n ++ failing :: [])
    tt.failPolicy = .abort ∧ tt.linesInfallible = false ∧ isFailing failing = true ∧
    (∀ n ∈ [0, 3, 7], (quiet n).all isQuiet = true ∧ (s .sample n).run = .running ∧
      (s .sample n).script = quiet n ++ failing :: []) ∧
    (readOrder (s .sample 0))[(quiet 0).length]? = some 0 ∧ (readOrder (s .sample 3))[(quiet 3).length]? = some 3 ∧
    (∀ n ∈ [0, 7], (s (.drive 0xFF#8) n).phase = .drive 0xFF#8) ∧
    (writeOrder (s (.drive 0xFF#8) 0))[(quiet 0).length]? = some 0 ∧
    (writeOrder (s (.drive 0xFF#8) 7))[(quiet 7).length]? = some 7 := by decide

/-- The turns in which a read fails for good and the safe-state drive loses line 5. -/
def readLost (n : Nat) : List Turn :=
  quiet n ++ lineTurns 1 0 true ++ (permute 3 outLines).flatMap (fun i => lineTurns 1 3 (i == 5)) ++ []

/-- The first and the last read fail for good. -/
theorem witness_PersistentReadFailureDrivesTheSafeState :
    ∀ n ∈ [0, 3], (demo (hard 1) loose .sample (readLost n)).run = .running ∧ (hard 1).failPolicy = .hardened ∧
      (hard 1).linesInfallible = false ∧ (quiet n).all isQuiet = true ∧
      (demo (hard 1) loose .sample (readLost n)).script = quiet n ++ lineTurns 1 0 true ++
        (permute 3 outLines).flatMap (fun i => lineTurns (hard 1).retryMax 3 (i == 5)) ++ [] ∧
      (readOrder (demo (hard 1) loose .sample (readLost n)))[(quiet n).length]? =
        (if n = 0 then some 0 else some 3) := by decide

/-- Lines 2 and 7 fail for good in the DRIVE, line 2 in the safe-state drive as well. -/
theorem witness_PersistentWriteFailuresAreAllRecorded :
    let script := (permute 1 outLines).flatMap (fun i => lineTurns 1 1 (i == 2 || i == 7)) ++
      (permute 0 outLines).flatMap (fun i => lineTurns 1 0 (i == 2)) ++ []
    let s := demo (hard 1) loose (.drive 0xFF#8) script
    s.run = .running ∧ s.phase = .drive 0xFF#8 ∧ s.params.failPolicy = .hardened ∧ s.params.linesInfallible = false ∧
      s.script = (permute 1 outLines).flatMap (fun i => lineTurns s.params.retryMax 1 (i == 2 || i == 7)) ++
        (permute 0 outLines).flatMap (fun i => lineTurns s.params.retryMax 0 (i == 2)) ++ [] ∧
      ∃ i : OutLine, (i == 2 || i == 7) = true := by decide +kernel

/-- Even where the turn says `fail`. -/
theorem witness_InfallibleLinesNeverHalt :
    let s := demo { tt with linesInfallible := true } (stim false false false true) .sample (failing :: quiet 3)
    s.run = .running ∧ s.params.linesInfallible = true ∧ step s = .next (sampleOp s) ∧
      (sampleOp s).phase = .lookup 1#4 := ⟨rfl, rfl, rfl, rfl⟩

/-- A halted state without a reset to come, and one with it. -/
theorem witness_HaltedEndsOnlyByReset :
    (haltedDemo (quiet 1)).run = .halted (.outputWriteFailure 2) [] ∧ hasReset (nextTurn (haltedDemo (quiet 1))).moves = false ∧
    (haltedDemo [moving .reset]).run = .halted (.outputWriteFailure 2) [] ∧
    hasReset (nextTurn (haltedDemo [moving .reset])).moves = true := by decide

/-- A reset before the first and before the last read; before the first and before the last write. -/
theorem witness_ResetCutsAnyOperation :
    let s := fun ph n => demo tt (stim false false false true) ph (quiet n ++ moving .reset :: [])
    (∀ n ∈ [0, 3, 7], (s .sample n).run = .running ∧ (s .sample n).script = quiet n ++ moving .reset :: [] ∧
      (quiet n).all isQuiet = true ∧ (moving .reset).moves = [.reset] ∧ (quiet n).length < 8) ∧
    (quiet 0).length < 4 ∧ (quiet 3).length < 4 ∧
    ∀ n ∈ [0, 7], (s (.drive 0xFF#8) n).phase = .drive 0xFF#8 := by decide

/-- The inputs hold during the SAMPLE and change before the last write. -/
def changing : State :=
  demo tt (stim true false false true) .iter (quiet 11 ++ [moving (.setInput 3 (.driven false))])

theorem witness_IterationDrivesTheEntryOfItsAddress :
    changing.run = .running ∧ beginsWith isCalm 12 changing.script = true ∧ beginsWith isQuiet 4 changing.script = true ∧
    presentedAddress changing = 9#4 ∧ (readOrder changing)[0]? = some 0 ∧ (readOrder changing)[3]? = some 3 := by decide

/-- 43_control_loop.md R115: the entry of 9 is driven, although `a3` falls before the last write. -/
theorem test_iter_changing : look (exec .iter changing) (fun s => (s.out, presentedAddress s)) =
    some (0b11110000#8, 1#4) := by decide +kernel

/-- A SAMPLE that gives an Address, at either top of the loop, one that fails, and one that a reset cuts. -/
theorem witness_IterationIsSampleLookupDrive :
    sampling.run = .running ∧ sampling.phase = .sample ∧ (sampleOp sampling).phase = .lookup 9#4 ∧
    changing.run = .running ∧ changing.phase = .iter ∧ (sampleOp changing).phase = .lookup 9#4 ∧
    (sampleOp (demo tt loose .iter [failing])).run = .halted (.inputReadFailure 0) [] ∧
    (sampleOp (demo tt loose .iter [failing])).phase = .sample ∧
    (sampleOp (demo tt loose .iter [moving .reset])).run = .running ∧
    (sampleOp (demo tt loose .iter [moving .reset])).phase = .sample :=
  ⟨rfl, rfl, rfl, rfl, rfl, rfl, rfl, rfl, rfl, rfl⟩

/-- Two states that sample the same Address after different histories, the second with a rise of `a3` during its SAMPLE. -/
theorem witness_IterationHasNoMemory :
    let t := { withOut (demo tt (stim false false false true) .iter
        (quiet 3 ++ moving (.setInput 3 (.driven true)) :: quiet 8)) 0#8 noneDefined with trace := [.env .reset] }
    sampling.run = .running ∧ t.run = .running ∧ sampling.params = t.params ∧
      exec .sample sampling = .next (sampleOp sampling) ∧ (sampleOp sampling).phase = .lookup 9#4 ∧
      beginsWith isCalm 8 (sampleOp sampling).script = true ∧
      exec .sample t = .next (sampleOp t) ∧ (sampleOp t).phase = .lookup 9#4 ∧
      beginsWith isCalm 8 (sampleOp t).script = true ∧ sampling.inputs ≠ t.inputs :=
  ⟨rfl, rfl, rfl, rfl, rfl, rfl, rfl, rfl, rfl, by decide⟩

theorem witness_NothingSurvivesAnIteration :
    exec .iter sampling = .next (iterOp sampling) ∧ exec .drive driving = .next (driveOp 0b10110110#8 driving) ∧
    exec .sample sampling = .next (sampleOp sampling) := ⟨rfl, rfl, rfl⟩

/-- Two states with different outputs, defined and not. -/
theorem witness_NothingReadsTheOutputs :
    SameButOutputs sampling (withOut sampling 0xFF#8 noneDefined) ∧ sampling ≠ withOut sampling 0xFF#8 noneDefined :=
  ⟨rfl, by decide⟩

theorem witness_NothingWritesTheRom :
    step driving = .next (driveOp 0b10110110#8 driving) ∧ exec .rom9 sampling = .next (lookupOp 9 sampling) := ⟨rfl, rfl⟩

/-- A driving state whose outputs show one entry while the pattern in flight is another. -/
theorem witness_StepKeepsOutputsOneEntry :
    OutputInv driving ∧ step driving = .next (driveOp 0b10110110#8 driving) := by
  refine ⟨fun _ => ⟨.inl ⟨9#4, fun i b h => ?_⟩, fun p hp => ⟨1#4, ?_⟩⟩, rfl⟩
  · revert i b
    decide
  · obtain rfl : (0b10110110#8 : Pattern) = p := Phase.drive.inj hp
    rfl

/-- A running state, and a step that halts it. -/
theorem witness_StepKeepsTheHaltReport :
    let s := demo tt loose .sample [failing]
    HaltInv s ∧ step s = .next (sampleOp s) ∧ (sampleOp s).run = .halted (.inputReadFailure 0) [] := by
  refine ⟨fun c l h => ?_, rfl, rfl⟩
  cases h

/-- Running states with the first and the last printed Address in flight, and one that drives a literal. -/
theorem witness_PrintedEntriesReadInPlace :
    (∀ a ∈ [1#4, 9#4, 15#4], (demo tt loose (.lookup a) []).run = .running ∧
      (demo tt loose (.lookup a) []).phase = .lookup a) ∧
    driving.run = .running ∧ driving.phase = .drive 0b10110110#8 ∧ beginsWith isCalm 8 driving.script = true := by decide

/-! ### The same statements on a platform that fixes lines at reset -/

/-- What such a platform shows after a reset: lines 0 to 3, and no other. -/
def pinnedLevel (i : OutLine) : Option Level :=
  if i = 0 ∨ i = 2 then some true else if i = 1 ∨ i = 3 then some false else none

/-- 10_state.md R26 with `OUT_RESET`: the outputs right after a reset, whatever the state before. -/
theorem test_reset_pinned (s : State) (h : s.params = pinned) (i : OutLine) : observe (deviceReset s) i = pinnedLevel i := by
  rw [observe_deviceReset, h]
  revert i
  decide

/-- ResetDefinesNoOutputLine has no hypothesis; a state for its clause about fixed lines. -/
theorem witness_ResetDefinesNoOutputLine :
    (demo pinned loose .sample []).params = pinned ∧ bitOf pinned.outResetFixed 3 = true ∧
    bitOf pinned.outResetFixed 4 = false := by decide

/-- A halted state that a reset ends, and two of the lines then defined. -/
theorem witness_HaltedEndsOnlyByReset_pinned :
    let s := { haltedDemo [moving .reset] with params := pinned }
    let u := deviceReset (record (.env .reset) (takeTurn s))
    s.run = .halted (.outputWriteFailure 2) [] ∧ hasReset (nextTurn s).moves = true ∧ step s = .next u ∧
      observe u 0 = some true ∧ observe u 3 = some false ∧ observe u 4 = none :=
  ⟨rfl, rfl, rfl, test_reset_pinned _ rfl 0, test_reset_pinned _ rfl 3, test_reset_pinned _ rfl 4⟩

/-- A reset before the last read and before the last write leaves lines 0 to 3 defined. -/
theorem witness_ResetCutsAnyOperation_pinned :
    let s := fun ph n => demo pinned loose ph (quiet n ++ moving .reset :: [])
    (s .sample 3).run = .running ∧ (s .sample 3).script = quiet 3 ++ moving .reset :: [] ∧
      (quiet 3).all isQuiet = true ∧ (quiet 3).length < 4 ∧ (quiet 7).all isQuiet = true ∧ (quiet 7).length < 8 ∧
      (s (.drive 0xFF#8) 7).phase = .drive 0xFF#8 ∧
      look (exec .sample (s .sample 3)) State.outDefined = some 0b00001111#8 ∧
      look (exec .drive (s (.drive 0xFF#8) 7)) State.outDefined = some 0b00001111#8 :=
  ⟨rfl, rfl, rfl, by decide, rfl, by decide, rfl, rfl, rfl⟩

/-- A running state that shows the fixed lines, at levels that no entry of its table has together. -/
theorem witness_StepKeepsOutputsOneEntry_pinned :
    let s := withOut (demo pinned loose .sample (quiet 4)) 0b00000101#8 0b00001111#8
    OutputInv s ∧ step s = .next (sampleOp s) ∧ observe s 0 = some true ∧ observe s 4 = none ∧
      ∀ a : Addr, bitOf (table pinned a) 0 = false ∨ bitOf (table pinned a) 2 = false := by
  refine ⟨fun _ => ⟨.inr fun i b h => ?_, fun p hp => by cases hp⟩, rfl, rfl, rfl, by decide⟩
  revert i b
  decide

end Sys2Proof.Tests
end

section
/-! PROOFS. The state at power-on and after a reset (10_state.md R25, R27): the run state and the ROM. -/

namespace Sys2Proof.Machine

/-- 41_program_table.md R81 to R96: the eight entries that the source prints do not depend on the parameters. -/
theorem tableList_eq (p : Params) : tableList p =
    [p.t0, 0b10110110#8, p.t2, p.t3, p.t4, p.t5, p.t6, p.t7, p.t8,
     0b11110000#8, 0b00000000#8, 0b00000000#8, 0b00000000#8, 0b00000000#8, 0b00000000#8, 0b00000000#8] := rfl

@[simp] theorem reset_run : State.reset.run = .running := rfl
@[simp] theorem reset_params : State.reset.params = Config.device := rfl

/-- 10_state.md R25: the ROM outlives a reset, whatever the state before it. -/
theorem tableList_deviceReset (s : State) : tableList (deviceReset s).params = tableList s.params := by
  rw [deviceReset_params]

/-- Settles O30: a reset keeps the parameters and so the table, which at power-on is the device's. -/
theorem resetRunsWithTheLiteralTable : Obligations.ResetRunsWithTheLiteralTable := by
  unfold Obligations.ResetRunsWithTheLiteralTable
  refine ⟨reset_run, ?powerOnTable, fun s => ⟨deviceReset_run s, tableList_deviceReset s⟩⟩
  case powerOnTable =>
    rw [reset_params]
    exact tableList_eq Config.device

end Sys2Proof.Machine
end

section
/-! PROOFS. What an instruction or a step that gives a next state has done, and that nothing of it touches the parameters, and so
the ROM (20_memory.md R33). -/

namespace Sys2Proof.Machine

/-! ### What a next state comes from -/

/-- The opcode table: the four SEQ rows, and one ADDR4 row for an Address (30_encoding.md R55). -/
theorem seq_or_rowOfAddr (i : Instr) :
    i = .iter ∨ i = .sample ∨ i = .lookup ∨ i = .drive ∨ ∃ a : Addr, rowOfAddr a = some i := by
  cases i <;> decide

/-- LOOKUP gives a next state only with an Address in flight: the LOOKUP of it. -/
theorem exec_lookup_next {s t : State} (h : exec .lookup s = .next t) :
    ∃ a, s.phase = .lookup a ∧ t = lookupOp a.toNat s := by
  simp only [exec, execLookup] at h
  split at h
  · cases h
  · next a _ hp => exact ⟨a, hp, (Host.Outcome.next.inj h).symm⟩
  · cases h

/-- DRIVE gives a next state only with a pattern in flight: the DRIVE of it. -/
theorem exec_drive_next {s t : State} (h : exec .drive s = .next t) : ∃ p, s.phase = .drive p ∧ t = driveOp p s := by
  simp only [exec, execDrive] at h
  split at h
  · cases h
  · next p _ hp => exact ⟨p, hp, (Host.Outcome.next.inj h).symm⟩
  · cases h

/-- An instruction gives a next state only in a running machine. -/
theorem running_of_exec_next {i : Instr} {s t : State} (h : exec i s = .next t) : s.run = .running := by
  cases hr : s.run with
  | running => rfl
  | halted c later => rw [exec_halted hr] at h; cases h

/-- Everything an instruction that gives a next state can have done: the operation of its row. -/
theorem exec_next_cases {i : Instr} {s t : State} (h : exec i s = .next t) :
    (i = .iter ∧ t = iterOp s) ∨ (i = .sample ∧ t = sampleOp s) ∨
    (∃ a : Addr, (i = .lookup ∧ s.phase = .lookup a ∨ rowOfAddr a = some i) ∧ t = lookupOp a.toNat s) ∨
    (∃ p, i = .drive ∧ s.phase = .drive p ∧ t = driveOp p s) := by
  have hr := running_of_exec_next h
  obtain rfl | rfl | rfl | rfl | ⟨a, ha⟩ := seq_or_rowOfAddr i
  · rw [exec_iter hr] at h
    exact .inl ⟨rfl, (Host.Outcome.next.inj h).symm⟩
  · rw [exec_sample hr] at h
    exact .inr (.inl ⟨rfl, (Host.Outcome.next.inj h).symm⟩)
  · obtain ⟨a, hp, ht⟩ := exec_lookup_next h
    exact .inr (.inr (.inl ⟨a, .inl ⟨rfl, hp⟩, ht⟩))
  · obtain ⟨p, hp, ht⟩ := exec_drive_next h
    exact .inr (.inr (.inr ⟨p, rfl, hp, ht⟩))
  · rw [exec_rowOfAddr hr ha] at h
    exact .inr (.inr (.inl ⟨a, .inr ha, (Host.Outcome.next.inj h).symm⟩))

/-- A halted machine goes on only by a reset among the environment's moves (60_exceptions.md R142). -/
theorem haltedStep_next {c : Cause} {s t : State} (h : haltedStep c s = .next t) : ResetReach s t := by
  unfold haltedStep at h
  split at h
  · next hreset =>
    obtain rfl := Host.Outcome.next.inj h
    exact .of_reach (.single (.weak (.turn s))) (applyMoves_reset _ _ hreset)
  · cases h

/-- Everything a step that gives a next state can have done: an instruction in a running machine, or a reset out of Halted. -/
theorem step_next_cases {s t : State} (h : step s = .next t) : (∃ i, exec i s = .next t) ∨ ResetReach s t := by
  unfold step at h
  split at h
  · exact .inr (haltedStep_next h)
  · split at h
    · next i _ _ => exact .inl ⟨i, h⟩
    · cases h

/-! ### The parameters stay -/

@[simp] theorem takeFailure_params (c : Cause) (later : List Cause) (s : State) :
    (takeFailure c later s).params = s.params := by
  obtain ⟨_, he⟩ | ⟨_, s', hreach, _, he⟩ | ⟨_, hreset⟩ := takeFailure_cases c later s
  · rw [he, haltAbort_params]
  · rw [he, haltWith_params, hreach.keeps.1]
  · exact hreset.keeps.1

@[simp] theorem sampleOp_params (s : State) : (sampleOp s).params = s.params := by
  obtain ⟨a, s', hweak, he⟩ | ⟨i, s', hweak, _, he⟩ | hreset := sampleOp_cases s
  · rw [he]; exact hweak.reach.keeps.1
  · rw [he, takeFailure_params, hweak.reach.keeps.1]
  · exact hreset.keeps.1

@[simp] theorem lookupOp_params (n : Nat) (s : State) : (lookupOp n s).params = s.params := by
  unfold lookupOp
  split <;> rfl

@[simp] theorem driveOp_params (p : Pattern) (s : State) : (driveOp p s).params = s.params := by
  obtain ⟨s', hreach, _, he⟩ | ⟨i, lost, s', hreach, _, _, _, he⟩ | hreset := driveOp_cases p s
  · rw [he]; exact hreach.keeps.1
  · rw [he, takeFailure_params, hreach.keeps.1]
  · exact hreset.keeps.1

/-- An iteration keeps the parameters, as far as it gets, because its three steps do. -/
@[simp] theorem iterOp_params (s : State) : (iterOp s).params = s.params := by
  simp only [iterOp]
  split <;> split <;> simp

theorem exec_keeps_params {i : Instr} {s t : State} (h : exec i s = .next t) : t.params = s.params := by
  obtain ⟨_, rfl⟩ | ⟨_, rfl⟩ | ⟨a, _, rfl⟩ | ⟨p, _, _, rfl⟩ := exec_next_cases h
  · exact iterOp_params s
  · exact sampleOp_params s
  · exact lookupOp_params a.toNat s
  · exact driveOp_params p s

theorem step_keeps_params {s t : State} (h : step s = .next t) : t.params = s.params := by
  obtain ⟨i, hexec⟩ | hreset := step_next_cases h
  · exact exec_keeps_params hexec
  · exact hreset.keeps.1

/-- Settles O37: every operation keeps the parameters, failed, halted or reset, and the table is a function of them. -/
theorem nothingWritesTheRom : Obligations.NothingWritesTheRom := by
  unfold Obligations.NothingWritesTheRom
  intro s t h
  have hparams : t.params = s.params := by
    obtain hstep | ⟨i, hexec⟩ := h
    · exact step_keeps_params hstep
    · exact exec_keeps_params hexec
  exact ⟨congrArg tableList hparams, hparams⟩

end Sys2Proof.Machine
end

section
/-! PROOFS. The Address as a number (30_encoding.md R51, R52): what its bits are worth, and which level each bit is. -/

namespace Sys2Proof.Machine

/-- 30_encoding.md R51: the weights of the four bits of an Address are 8, 4, 2 and 1. -/
theorem toNat_eq_weighted_bits (a : Addr) :
    a.toNat = 8 * (bitOf a 3).toNat + 4 * (bitOf a 2).toNat + 2 * (bitOf a 1).toNat + 1 * (bitOf a 0).toNat := by
  revert a; decide

/-- Each of the four composed levels is the bit at its own place. -/
theorem bits_composeAddress (b3 b2 b1 b0 : Level) :
    bitOf (composeAddress b3 b2 b1 b0) 3 = b3 ∧ bitOf (composeAddress b3 b2 b1 b0) 2 = b2 ∧
    bitOf (composeAddress b3 b2 b1 b0) 1 = b1 ∧ bitOf (composeAddress b3 b2 b1 b0) 0 = b0 :=
  have hbit := bitOf_composeAddress ![b0, b1, b2, b3]
  ⟨hbit 3, hbit 2, hbit 1, hbit 0⟩

/-- Settles O6: an Address is the weighted sum of its bits, and the bits of a composed one are the levels. -/
theorem addressIsTheWeightedSum : Obligations.AddressIsTheWeightedSum := by
  unfold Obligations.AddressIsTheWeightedSum
  intro b3 b2 b1 b0
  obtain ⟨h3, h2, h1, h0⟩ := bits_composeAddress b3 b2 b1 b0
  refine ⟨?sum, (composeAddress b3 b2 b1 b0).isLt, h3, h2, h1, h0⟩
  case sum => rw [toNat_eq_weighted_bits, h3, h2, h1, h0]

end Sys2Proof.Machine
end

section
/-! PROOFS. The ROM (41_program_table.md R80, R97): the table as a list and as entries, what LOOKUP and the row of an Address read,
and the printed entries in place, up to the lines that driving them makes high (R82, R90 to R96). -/

namespace Sys2Proof.Machine

/-! ### The table -/

/-- 41_program_table.md R97: there is no entry outside 0..15. -/
theorem romEntry_eq_none (p : Params) : ∀ {n : Nat}, 16 ≤ n → romEntry p n = none
  | _ + 16, _ => rfl

/-- Every index below 16 is an Address, and every Address has its entry. -/
theorem romEntry_isSome_iff (p : Params) (n : Nat) : (romEntry p n).isSome ↔ n < 16 := by
  constructor
  · intro hsome
    by_contra hn
    simp [romEntry_eq_none p (Nat.le_of_not_lt hn)] at hsome
  · intro hn
    have hentry : romEntry p n = some (table p (BitVec.ofNatLT n hn)) := romEntry_addr p (BitVec.ofNatLT n hn)
    rw [hentry, Option.isSome_some]

/-- 30_encoding.md R59: the entry of an Address stands in the list at that place, index 0 first. -/
theorem tableList_getElem?_addr (p : Params) (a : Addr) : (tableList p)[a.toNat]? = some (table p a) := by
  obtain ⟨a⟩ := a
  fin_cases a <;> rfl

/-- Settles O16: the list is written out, and an index has an entry exactly when it is an Address. -/
theorem tableHasSixteenEntries : Obligations.TableHasSixteenEntries := by
  unfold Obligations.TableHasSixteenEntries
  exact fun p => ⟨rfl, romEntry_isSome_iff p, fun a => ⟨tableList_getElem?_addr p a, romEntry_addr p a⟩⟩

/-! ### Reading an entry -/

/-- 41_program_table.md R80: what LOOKUP of the Address in flight does. -/
theorem exec_lookup_entry {s : State} {a : Addr} (h : s.run = .running) (hp : s.phase = .lookup a) :
    exec .lookup s = .next { s with
      phase := .drive (table s.params a), trace := s.trace ++ [.rom a (table s.params a)] } := by
  rw [exec_lookup h hp, lookupOp_addr]

/-- 30_encoding.md R55: the row of the Address in flight does what LOOKUP does. -/
theorem exec_row_eq_exec_lookup {s : State} {a : Addr} {i : Instr} (h : s.run = .running) (hp : s.phase = .lookup a)
    (hi : rowOfAddr a = some i) : exec i s = exec .lookup s := by
  rw [exec_rowOfAddr h hi, exec_lookup h hp]

/-- 30_encoding.md R55: a step with an Address in flight runs the row of that Address. -/
theorem step_eq_exec_row {s : State} {a : Addr} {i : Instr} (h : s.run = .running) (hp : s.phase = .lookup a)
    (hi : rowOfAddr a = some i) : step s = exec i s := by
  simp only [step_running h, hp, exec_rowOfAddr h hi]

/-- Settles O15: LOOKUP reads the entry, and every Address selects a row, which does the same. -/
theorem lookupReadsTheEntryOfItsAddress : Obligations.LookupReadsTheEntryOfItsAddress := by
  unfold Obligations.LookupReadsTheEntryOfItsAddress
  intro s a h hp
  obtain ⟨i, hi⟩ := Option.isSome_iff_exists.mp (rowOfAddr_isSome a)
  exact ⟨exec_lookup_entry h hp, i, hi, exec_row_eq_exec_lookup h hp hi⟩

/-! ### The printed entries -/

/-- A row reads its literal in place when its Address selects it and the table has that literal there, whatever the parameters. -/
theorem rowReadsInPlace_of_table_eq {i : Instr} {a : Addr} {entry : Pattern} (hi : rowOfAddr a = some i)
    (htable : ∀ p, table p a = entry) : RowReadsInPlace i a entry := by
  refine ⟨hi, fun s h hp => ⟨?reads, step_eq_exec_row h hp hi⟩⟩
  case reads => rw [exec_row_eq_exec_lookup h hp hi, exec_lookup_entry h hp, htable]

/-- 42_output_driver.md R100: driving a pattern makes exactly the lines of its set bits high. -/
theorem drivingMakesHigh_of_bits {p : Pattern} {high : List OutLine} (hbits : ∀ i, bitOf p i = decide (i ∈ high)) :
    DrivingMakesHigh p high := by
  intro s h hp hcalm
  obtain ⟨ws, hdrive, -, -⟩ := driveOp_calm p hcalm
  refine ⟨driveOp p s, exec_drive h hp, fun i => ?_⟩
  simp only [hdrive, observe, bitOf_allDefined, if_true, hbits]

/-- Settles O42: each printed Address selects its row and the table has the literal there; the high lines are the set bits. -/
theorem printedEntriesReadInPlace : Obligations.PrintedEntriesReadInPlace := by
  unfold Obligations.PrintedEntriesReadInPlace
  refine ⟨?rom1, ?rom9, ?rom10, ?rom11, ?rom12, ?rom13, ?rom14, ?rom15, ?driveB6, ?driveF0, ?drive00⟩
  case rom1 | rom9 | rom10 | rom11 | rom12 | rom13 | rom14 | rom15 =>
    exact rowReadsInPlace_of_table_eq (by decide) fun _ => rfl
  case driveB6 | driveF0 | drive00 => exact drivingMakesHigh_of_bits (by decide)

end Sys2Proof.Machine
end

section
/-! PROOFS. DRIVE at calm turns (42_output_driver.md R100 to R103): the outputs it leaves depend on the pattern alone, and over
outputs that already show the pattern no write changes a level. -/

namespace Sys2Proof.Machine

/-- 42_output_driver.md R100: a DRIVE writes each of the eight lines once, in whatever order. -/
theorem writeOrder_perm (s : State) : (writeOrder s).Perm outLines := permute_perm _ _

@[simp] theorem length_writeOrder (s : State) : (writeOrder s).length = 8 := (writeOrder_perm s).length_eq

theorem mem_writeOrder (s : State) (i : OutLine) : i ∈ writeOrder s := (writeOrder_perm s).mem_iff.mpr (mem_outLines i)

theorem RecordsWrites.length_written {ws : List Obs} {ms : List EnvMove} {rs : List (OutLine × Level)}
    (h : RecordsWrites ws ms rs) : (ws.filterMap Obs.written).length = rs.length :=
  congrArg List.length h.2.1

/-- Settles O18: what a DRIVE at calm turns leaves is written out for every state of the outputs. -/
theorem driveSetsEveryLineFromThePattern : Obligations.DriveSetsEveryLineFromThePattern := by
  unfold Obligations.DriveSetsEveryLineFromThePattern
  intro s p h hp hcalm
  obtain ⟨ws, hdrive, hrecord, -⟩ := driveOp_calm p hcalm
  exact ⟨ws, by rw [exec_drive h hp, hdrive], hrecord, writeOrder_perm s⟩

/-- 42_output_driver.md R102, R105: where every line shows the pattern beforehand, its old level is its new one, so after each of the
eight writes all lines show the pattern. -/
theorem exec_drive_again {u : State} {p : Pattern} (h : u.run = .running) (hcalm : beginsWith isCalm 8 u.script = true)
    (hshown : ∀ i, observe u i = some (bitOf p i)) :
    ∃ v, exec .drive { u with phase := .drive p } = .next v ∧ v.out = p ∧ v.outDefined = allDefined ∧
      ∃ ws, v.trace = u.trace ++ ws ∧ (ws.filterMap Obs.written).length = 8 ∧
        ∀ e ∈ ws, e.written.isSome = true → ∀ i, e.shows i = some (bitOf p i) := by
  obtain ⟨ws, hdrive, hrecord, hshows⟩ := driveOp_calm (s := { u with phase := .drive p }) p hcalm
  rw [exec_drive (s := { u with phase := .drive p }) h rfl, hdrive]
  refine ⟨_, rfl, rfl, rfl, ws, rfl, ?eightWrites, fun e hmem hwrite i => ?level⟩
  case eightWrites => rw [hrecord.length_written, List.length_map, length_writeOrder]
  case level =>
    obtain ⟨k, hk⟩ := List.mem_iff_getElem?.mp
      (List.mem_filter (p := fun e => e.written.isSome).mpr ⟨hmem, hwrite⟩)
    obtain ⟨n, hn⟩ := List.mem_iff_getElem?.mp (mem_writeOrder _ i)
    have hunchanged : observe { u with phase := .drive p } i = some (bitOf p i) := hshown i
    rw [hshows k e hk n i hn, hunchanged, ite_self]

/-- Settles O19: the first DRIVE leaves every line at its bit of the pattern, so the second changes no level. -/
theorem driveTwiceChangesNoLevel : Obligations.DriveTwiceChangesNoLevel := by
  unfold Obligations.DriveTwiceChangesNoLevel
  intro s p h hp hcalm
  obtain ⟨hfirst, hsecond⟩ := beginsWith_add (m := 8) (n := 8) hcalm
  obtain ⟨ws, hdrive, -, -⟩ := driveOp_calm p hfirst
  have hrun : (driveOp p s).run = .running := by rw [hdrive, h]
  have hscript : beginsWith isCalm 8 (driveOp p s).script = true := by rw [hdrive]; exact hsecond
  have hshown : ∀ i, observe (driveOp p s) i = some (bitOf p i) := by simp [hdrive, observe]
  obtain ⟨v, hagain, hout, hdefined, hwrites⟩ := exec_drive_again hrun hscript hshown
  exact ⟨driveOp p s, v, exec_drive h hp, hagain, by rw [hdrive], hout, by rw [hdrive], hdefined, hwrites⟩

end Sys2Proof.Machine
end

section
/-! PROOFS. The iteration (43_control_loop.md R110, R113): what it drives is a function of the parameters and the Address sampled. -/

namespace Sys2Proof.Machine

/-- 43_control_loop.md R113: an iteration whose SAMPLE gives `a`, and whose writes succeed, leaves all lines at the entry of `a`. -/
theorem exec_iter_drives_entry {s s1 : State} {a : Addr} (h : s.run = .running) (hsample : exec .sample s = .next s1)
    (ha : s1.phase = .lookup a) (hcalm : beginsWith isCalm 8 s1.script = true) :
    ∃ u, exec .iter s = .next u ∧ u.out = table s.params a ∧ u.outDefined = allDefined := by
  rw [exec_sample h] at hsample
  obtain rfl := Host.Outcome.next.inj hsample
  obtain ⟨hiter, -, -⟩ := iterOp_of_sample ha
  have hscript : beginsWith isCalm 8 (lookupOp a.toNat (sampleOp s)).script = true := by rwa [lookupOp_addr]
  obtain ⟨ws, hdrive, -, -⟩ := driveOp_calm (table s.params a) hscript
  exact ⟨iterOp s, exec_iter h, by rw [hiter, hdrive], by rw [hiter, hdrive]⟩

/-- Settles O34: both iterations drive the entry of the one Address in the one table. -/
theorem iterationHasNoMemory : Obligations.IterationHasNoMemory := by
  unfold Obligations.IterationHasNoMemory
  intro s t s1 t1 a hs ht hparams hsampleS haS hcalmS hsampleT haT hcalmT
  obtain ⟨u, hiterS, houtS, hdefinedS⟩ := exec_iter_drives_entry hs hsampleS haS hcalmS
  obtain ⟨v, hiterT, houtT, hdefinedT⟩ := exec_iter_drives_entry ht hsampleT haT hcalmT
  have hsame : u.out = v.out := by rw [houtS, houtT, hparams]
  exact ⟨u, v, hiterS, hiterT, hsame, hdefinedS, hdefinedT, houtS⟩

end Sys2Proof.Machine
end

section
/-! PROOFS. The encoding in both directions (30_encoding.md R55): what a byte that selects a row looks like, and that the byte of a
row is the only one, up to the bits the row ignores. -/

namespace Sys2Proof.Machine

/-- A row is selected by all bits but, for a SEQ row, the low four; so a byte it selects is the row's value with the byte's own
low four bits where the row looks at none. -/
theorem byte_of_selects {r : Row} (hr : r ∈ rows) {b : Byte} (hb : r.selects b = true) :
    r.value ||| ((b.truncate 4).zeroExtend 8 &&& ~~~r.mask) = b := by
  have hmask : ∀ r ∈ rows, r.mask = 0xFF#8 ∨ r.mask = 0xF0#8 := by decide
  have hvalue : b &&& r.mask = r.value := by simpa [Row.selects] using hb
  apply BitVec.eq_of_getLsbD_eq
  intro i hi
  rw [← hvalue]
  obtain hm | hm := hmask r hr <;> rw [hm] <;> interval_cases i <;> simp

/-- A row is found by its instruction, since no two rows share one. -/
theorem find_instr_of_mem {r : Row} (hr : r ∈ rows) : rows.find? (fun q => q.instr == r.instr) = some r := by
  revert r; decide

/-- A byte that selects a row is the encoding of that row with the byte's own low four bits. -/
theorem encodeWith_of_decodeByte {b : Byte} {i : Instr} (h : decodeByte b = some i) :
    encodeWith (b.truncate 4) i = [b] := by
  obtain ⟨r, hfind, rfl⟩ := Option.map_eq_some_iff.mp h
  have hr : r ∈ rows := List.mem_of_find?_eq_some hfind
  have hselects : r.selects b = true := List.find?_some (p := fun q : Row => q.selects b) hfind
  simp only [encodeWith, find_instr_of_mem hr, byte_of_selects hr hselects]

/-- What is decoded is one byte that selects a row, and the bytes after it. -/
theorem decode_eq_ok {bytes rest : List Byte} {i : Instr} (h : decode bytes = .ok i rest) :
    ∃ b, bytes = b :: rest ∧ decodeByte b = some i := by
  cases bytes with
  | nil => cases h
  | cons b rest' =>
    simp only [decode] at h
    split at h
    · next j hj =>
      obtain ⟨rfl, rfl⟩ := Decoded.ok.inj h
      exact ⟨b, rfl, hj⟩
    · cases h

/-- Settles O2: what decodes is the row's byte with its own low four bits, and every byte of a row decodes to it. -/
theorem decodeAndEncodeAgree : Obligations.DecodeAndEncodeAgree := by
  unfold Obligations.DecodeAndEncodeAgree
  intro i bytes rest
  constructor
  · intro hdecode
    obtain ⟨b, rfl, hb⟩ := decode_eq_ok hdecode
    exact ⟨b.truncate 4, by rw [encodeWith_of_decodeByte hb]; rfl⟩
  · rintro ⟨aaaa, rfl⟩
    exact decode_encodeWith aaaa i rest

/-- Settles O1: each word is evaluated. -/
theorem addressCodesSelectTheirRows : Obligations.AddressCodesSelectTheirRows := by
  unfold Obligations.AddressCodesSelectTheirRows
  decide

end Sys2Proof.Machine
end

section
/-! PROOFS. How the operations of an iteration end (43_control_loop.md R110, R111, R114): the phase each of them leaves, and the two
ways an iteration goes. -/

namespace Sys2Proof.Machine

/-! ### The phase an operation leaves -/

/-- After a failure the loop is at SAMPLE: halted there, or reset. -/
@[simp] theorem takeFailure_phase (c : Cause) (later : List Cause) (s : State) :
    (takeFailure c later s).phase = .sample := by
  obtain ⟨_, he⟩ | ⟨_, s', _, _, he⟩ | ⟨_, hreset⟩ := takeFailure_cases c later s
  · rw [he, haltAbort_phase]
  · rw [he, haltWith_phase]
  · exact hreset.keeps.2.2.1

/-- A SAMPLE leaves an Address only by completing, as a chain of moves that define no output line. -/
theorem sampleOp_of_address {s : State} {a : Addr} (h : (sampleOp s).phase = .lookup a) :
    ∃ s', Weak s s' ∧ sampleOp s = { s' with phase := .lookup a } := by
  obtain ⟨a', s', hweak, he⟩ | ⟨i, s', _, _, he⟩ | hreset := sampleOp_cases s
  · rw [he] at h
    obtain rfl := Phase.lookup.inj h
    exact ⟨s', hweak, he⟩
  · rw [he, takeFailure_phase] at h
    cases h
  · rw [hreset.keeps.2.2.1] at h
    cases h

/-- A SAMPLE leaves an Address, or the loop where it began. -/
theorem sampleOp_phase (s : State) : (sampleOp s).phase = .sample ∨ ∃ a, (sampleOp s).phase = .lookup a := by
  obtain ⟨a, s', _, he⟩ | ⟨i, s', _, _, he⟩ | hreset := sampleOp_cases s
  · exact .inr ⟨a, by rw [he]⟩
  · exact .inl (by rw [he, takeFailure_phase])
  · exact .inl hreset.keeps.2.2.1

/-- A DRIVE leaves the loop at SAMPLE, however it ends. -/
@[simp] theorem driveOp_phase (p : Pattern) (s : State) : (driveOp p s).phase = .sample := by
  obtain ⟨s', _, _, he⟩ | ⟨i, lost, s', _, _, _, _, he⟩ | hreset := driveOp_cases p s
  · rw [he]
  · rw [he, takeFailure_phase]
  · exact hreset.keeps.2.2.1

@[simp] theorem iterOp_phase (s : State) : (iterOp s).phase = loopTop s.phase := rfl

theorem loopTop_eq (ph : Phase) : loopTop ph = if ph = .iter then .iter else .sample := by
  cases ph <;> rfl

/-! ### The two ways an iteration goes -/

/-- An iteration is SAMPLE, LOOKUP and DRIVE, or ends with the SAMPLE that gave no Address. -/
theorem iterOp_cases (s : State) :
    (∃ a, (sampleOp s).phase = .lookup a ∧
      iterOp s = { driveOp (table s.params a) (lookupOp a.toNat (sampleOp s)) with phase := loopTop s.phase }) ∨
    ((sampleOp s).phase = .sample ∧ iterOp s = { sampleOp s with phase := loopTop s.phase }) := by
  obtain hnone | ⟨a, ha⟩ := sampleOp_phase s
  · exact .inr ⟨hnone, iterOp_of_no_sample (by simp [hnone]) (by simp [hnone])⟩
  · exact .inl ⟨a, ha, (iterOp_of_sample ha).1⟩

/-- Settles O35: each operation's phase, whichever way it ends. -/
theorem nothingSurvivesAnIteration : Obligations.NothingSurvivesAnIteration := by
  unfold Obligations.NothingSurvivesAnIteration
  refine ⟨?iter, ?drive, ?sample⟩
  case iter =>
    intro s u h
    rw [exec_iter (running_of_exec_next h)] at h
    obtain rfl := Host.Outcome.next.inj h
    exact iterOp_phase s
  case drive =>
    intro s u h
    obtain ⟨p, _, rfl⟩ := exec_drive_next h
    exact driveOp_phase p s
  case sample =>
    intro s u h
    rw [exec_sample (running_of_exec_next h)] at h
    obtain rfl := Host.Outcome.next.inj h
    exact sampleOp_phase s

/-- Where a SAMPLE gave an Address, LOOKUP and DRIVE are the next two steps, with the entry of that Address between them. -/
theorem lookup_drive_steps {s1 : State} {a : Addr} (h : s1.run = .running) (ha : s1.phase = .lookup a) :
    exec .lookup s1 = .next (lookupOp a.toNat s1) ∧ step s1 = .next (lookupOp a.toNat s1) ∧
    (lookupOp a.toNat s1).phase = .drive (table s1.params a) ∧ (lookupOp a.toNat s1).run = .running ∧
    exec .drive (lookupOp a.toNat s1) = .next (driveOp (table s1.params a) (lookupOp a.toNat s1)) ∧
    step (lookupOp a.toNat s1) = .next (driveOp (table s1.params a) (lookupOp a.toNat s1)) := by
  have hphase : (lookupOp a.toNat s1).phase = .drive (table s1.params a) := by rw [lookupOp_addr]
  have hrun : (lookupOp a.toNat s1).run = .running := by rw [lookupOp_addr, h]
  refine ⟨exec_lookup h ha, ?step1, hphase, hrun, exec_drive hrun hphase, ?step2⟩
  case step1 => rw [step_running h, ha]
  case step2 => rw [step_running hrun, hphase]

/-- Settles O33: the steps of either way an iteration goes are run one after the other. -/
theorem iterationIsSampleLookupDrive : Obligations.IterationIsSampleLookupDrive := by
  unfold Obligations.IterationIsSampleLookupDrive
  intro s h
  refine ⟨fun hp => ?_, fun hp => ?_, loopTop_eq s.phase, sampleOp s, exec_sample h, ?_⟩
  · rw [step_running h, hp, exec_iter h]
  · rw [step_running h, hp, exec_sample h]
  · obtain ⟨a, ha, hiter⟩ | ⟨hnone, hiter⟩ := iterOp_cases s
    · obtain ⟨-, hparams, hrun⟩ := iterOp_of_sample ha
      obtain ⟨hexec1, hstep1, hphase, hrun2, hexec2, hstep2⟩ := lookup_drive_steps (hrun.trans h) ha
      rw [hparams] at hphase hexec2 hstep2
      exact .inl ⟨a, _, _, ha, hrun.trans h, hexec1, hstep1, hphase, hrun2, hexec2, hstep2,
        driveOp_phase _ _, by rw [exec_iter h, hiter]⟩
    · exact .inr ⟨hnone, by rw [exec_iter h, hiter]⟩

end Sys2Proof.Machine
end

section
/-! PROOFS. The device never reads its output lines, nor the observer's record (10_state.md R12): from states that differ in
nothing else, every operation ends alike, in states that differ in nothing else. -/

namespace Sys2Proof.Machine

/-- The fields that an operation may depend on. -/
theorem sameButOutputs_iff {s t : State} : SameButOutputs s t ↔
    t.params = s.params ∧ t.run = s.run ∧ t.phase = s.phase ∧ t.inputs = s.inputs ∧ t.script = s.script ∧
      t.draws = s.draws := by
  cases s
  cases t
  simp [SameButOutputs]

theorem SameButOutputs.params {s t : State} (h : SameButOutputs s t) : t.params = s.params := by
  rw [h]
theorem SameButOutputs.run {s t : State} (h : SameButOutputs s t) : t.run = s.run := by
  rw [h]
theorem SameButOutputs.phase {s t : State} (h : SameButOutputs s t) : t.phase = s.phase := by
  rw [h]
theorem SameButOutputs.inputs {s t : State} (h : SameButOutputs s t) : t.inputs = s.inputs := by
  rw [h]
theorem SameButOutputs.script {s t : State} (h : SameButOutputs s t) : t.script = s.script := by
  rw [h]
theorem SameButOutputs.draws {s t : State} (h : SameButOutputs s t) : t.draws = s.draws := by
  rw [h]

theorem SameButOutputs.withPhase {s t : State} (h : SameButOutputs s t) (ph : Phase) :
    SameButOutputs { s with phase := ph } { t with phase := ph } := by
  simp_all [sameButOutputs_iff]

/-! ### The environment's turn -/

theorem SameButOutputs.nextTurn {s t : State} (h : SameButOutputs s t) : nextTurn t = nextTurn s := by
  simp only [Machine.nextTurn, h.script, h.draws]

theorem SameButOutputs.takeTurn {s t : State} (h : SameButOutputs s t) : SameButOutputs (takeTurn s) (takeTurn t) := by
  simp only [Machine.takeTurn, h.script]
  split <;> simp_all [sameButOutputs_iff]

theorem SameButOutputs.moveEffect {s t : State} (h : SameButOutputs s t) (m : EnvMove) :
    SameButOutputs (moveEffect m (record (.env m) s)) (moveEffect m (record (.env m) t)) := by
  cases m <;> simp_all [sameButOutputs_iff, Machine.moveEffect]

theorem SameButOutputs.applyMoves : ∀ (ms : List EnvMove) {s t : State}, SameButOutputs s t →
    SameButOutputs (applyMoves ms s) (applyMoves ms t)
  | [], _, _, h => h
  | m :: ms, _, _, h => SameButOutputs.applyMoves ms (h.moveEffect m)

/-! ### Line operations -/

/-- Two line operations that end alike, in states that differ in nothing but the outputs and the record. -/
inductive ResultsAgree {α : Type} : LineResult α → LineResult α → Prop where
  | ok (v : α) {s t : State} : SameButOutputs s t → ResultsAgree (.ok v s) (.ok v t)
  | failed (c : Cause) {s t : State} : SameButOutputs s t → ResultsAgree (.failed c s) (.failed c t)
  | reset {s t : State} : SameButOutputs s t → ResultsAgree (.reset s) (.reset t)

/-- An operation that reads neither the outputs nor the record. -/
def ReadsNoOutput {α : Type} (op : State → LineResult α) : Prop :=
  ∀ s t : State, SameButOutputs s t → ResultsAgree (op s) (op t)

theorem readAnswer_readsNoOutput (i : InLine) (ok : Bool) : ReadsNoOutput (readAnswer i ok) := by
  intro s t h
  cases ok with
  | true =>
    simp only [readAnswer, if_true, inputLevel_congr h.params h.inputs]
    exact .ok _ (by simp_all [sameButOutputs_iff])
  | false => exact .failed _ (by simp_all [sameButOutputs_iff])

theorem writeAnswer_readsNoOutput (i : OutLine) (b : Level) (ok : Bool) : ReadsNoOutput (writeAnswer i b ok) := by
  intro s t h
  cases ok with
  | true => exact .ok _ (by simp_all [sameButOutputs_iff])
  | false => exact .failed _ (by simp_all [sameButOutputs_iff])

theorem attempt_readsNoOutput {α : Type} {act : Bool → State → LineResult α} (hact : ∀ ok, ReadsNoOutput (act ok)) :
    ReadsNoOutput (attempt act) := by
  intro s t h
  have hmoved := SameButOutputs.applyMoves (nextTurn s).moves h.takeTurn
  simp only [attempt, h.nextTurn]
  split
  · exact .reset hmoved
  · rw [hmoved.params]
    exact hact _ _ _ hmoved

theorem withRetry_readsNoOutput {α : Type} {op : State → LineResult α} (hop : ReadsNoOutput op) :
    ∀ n, ReadsNoOutput (withRetry op n)
  | 0 => hop
  | n + 1 => by
    intro s t h
    have hfirst := hop s t h
    unfold withRetry
    generalize op s = r at hfirst
    generalize op t = q at hfirst
    cases hfirst with
    | ok v h => exact .ok v h
    | failed c h => exact withRetry_readsNoOutput hop n _ _ h
    | reset h => exact .reset h

theorem inRead_readsNoOutput (i : InLine) : ReadsNoOutput (inRead i) := by
  intro s t h
  simp only [inRead, h.params]
  exact withRetry_readsNoOutput (attempt_readsNoOutput (readAnswer_readsNoOutput i)) _ s t h

theorem outWrite_readsNoOutput (i : OutLine) (b : Level) : ReadsNoOutput (outWrite i b) := by
  intro s t h
  simp only [outWrite, h.params]
  exact withRetry_readsNoOutput (attempt_readsNoOutput (writeAnswer_readsNoOutput i b)) _ s t h

theorem readLines_readsNoOutput : ∀ (l : List InLine) (acc : Addr), ReadsNoOutput (readLines l acc)
  | [], acc => fun _ _ h => .ok acc h
  | i :: rest, acc => by
    intro s t h
    have hread := inRead_readsNoOutput i s t h
    unfold readLines
    generalize inRead i s = r at hread
    generalize inRead i t = q at hread
    cases hread with
    | ok b h => exact readLines_readsNoOutput rest _ _ _ h
    | failed c h => exact .failed c h
    | reset h => exact .reset h

theorem writeLines_readsNoOutput (p : Pattern) : ∀ (l : List OutLine) (causes : List Cause),
    ReadsNoOutput (writeLines p l causes)
  | [], causes => fun _ _ h => .ok causes h
  | i :: rest, causes => by
    intro s t h
    have hwrite := outWrite_readsNoOutput i (bitOf p i) s t h
    unfold writeLines
    generalize outWrite i (bitOf p i) s = r at hwrite
    generalize outWrite i (bitOf p i) t = q at hwrite
    cases hwrite with
    | ok u h => exact writeLines_readsNoOutput p rest causes _ _ h
    | failed c h =>
      simp only [h.params]
      split
      · exact .failed c h
      · exact writeLines_readsNoOutput p rest _ _ _ h
    | reset h => exact .reset h

theorem safeLines_readsNoOutput : ∀ l : List OutLine, ReadsNoOutput (safeLines l)
  | [] => fun _ _ h => .ok () h
  | i :: rest => by
    intro s t h
    have hwrite := outWrite_readsNoOutput i false s t h
    unfold safeLines
    generalize outWrite i false s = r at hwrite
    generalize outWrite i false t = q at hwrite
    cases hwrite with
    | ok u h => exact safeLines_readsNoOutput rest _ _ h
    | failed c h => exact safeLines_readsNoOutput rest _ _ h
    | reset h => exact .reset h

/-! ### The steps of an iteration -/

theorem SameButOutputs.haltAbort {s t : State} (h : SameButOutputs s t) (c : Cause) :
    SameButOutputs (haltAbort c s) (haltAbort c t) := by
  simp_all [sameButOutputs_iff]

theorem SameButOutputs.haltWith {s t : State} (h : SameButOutputs s t) (c : Cause) (later : List Cause) :
    SameButOutputs (haltWith c later s) (haltWith c later t) := by
  simp_all [sameButOutputs_iff]

theorem SameButOutputs.haltSafe {s t : State} (h : SameButOutputs s t) (c : Cause) (later : List Cause) :
    SameButOutputs (haltSafe c later s) (haltSafe c later t) := by
  have hdrive := safeLines_readsNoOutput (writeOrder s) s t h
  simp only [Machine.haltSafe, writeOrder, h.nextTurn] at hdrive ⊢
  generalize safeLines _ s = r at hdrive
  generalize safeLines _ t = q at hdrive
  cases hdrive with
  | ok u h => exact h.haltWith c later
  | failed c' h => exact h.haltWith c later
  | reset h => exact h

theorem SameButOutputs.takeFailure {s t : State} (h : SameButOutputs s t) (c : Cause) (later : List Cause) :
    SameButOutputs (takeFailure c later s) (takeFailure c later t) := by
  simp only [Machine.takeFailure, h.params]
  split
  · exact h.haltAbort c
  · exact h.haltSafe c later

theorem SameButOutputs.sampleOp {s t : State} (h : SameButOutputs s t) : SameButOutputs (sampleOp s) (sampleOp t) := by
  have hreads := readLines_readsNoOutput (readOrder s) 0#4 s t h
  simp only [Machine.sampleOp, readOrder, h.nextTurn] at hreads ⊢
  generalize readLines _ 0#4 s = r at hreads
  generalize readLines _ 0#4 t = q at hreads
  cases hreads with
  | ok a h => exact h.withPhase (.lookup a)
  | failed c h => exact h.takeFailure c []
  | reset h => exact h

theorem SameButOutputs.lookupOp {s t : State} (h : SameButOutputs s t) (n : Nat) :
    SameButOutputs (lookupOp n s) (lookupOp n t) := by
  simp only [Machine.lookupOp, h.params]
  split
  · simp_all [sameButOutputs_iff]
  · exact h.haltAbort _

theorem SameButOutputs.driveOp {s t : State} (h : SameButOutputs s t) (p : Pattern) :
    SameButOutputs (driveOp p s) (driveOp p t) := by
  have hwrites := writeLines_readsNoOutput p (writeOrder s) [] s t h
  simp only [Machine.driveOp, writeOrder, h.nextTurn] at hwrites ⊢
  generalize writeLines p _ [] s = r at hwrites
  generalize writeLines p _ [] t = q at hwrites
  cases hwrites with
  | ok causes h =>
    cases causes with
    | nil => exact h.withPhase .sample
    | cons c later => exact h.takeFailure c later
  | failed c h => exact h.takeFailure c []
  | reset h => exact h

theorem SameButOutputs.iterOp {s t : State} (h : SameButOutputs s t) : SameButOutputs (iterOp s) (iterOp t) := by
  obtain ⟨a, ha, hiter⟩ | ⟨hnone, hiter⟩ := iterOp_cases s
  · obtain ⟨hiter', -, -⟩ := iterOp_of_sample (h.sampleOp.phase.trans ha)
    rw [hiter, hiter', h.params, h.phase]
    exact ((h.sampleOp.lookupOp a.toNat).driveOp _).withPhase _
  · have hnone' := h.sampleOp.phase.trans hnone
    rw [hiter, iterOp_of_no_sample (by simp [hnone']) (by simp [hnone']), h.phase]
    exact h.sampleOp.withPhase _

/-! ### Instructions and steps -/

theorem whenRunning_agree {op : State → State} (hop : ∀ {s t}, SameButOutputs s t → SameButOutputs (op s) (op t))
    {s t : State} (h : SameButOutputs s t) : OutcomesAgree SameButOutputs (whenRunning op s) (whenRunning op t) := by
  simp only [whenRunning, h.run]
  split
  · exact hop h
  · rfl

theorem SameButOutputs.execLookup {s t : State} (h : SameButOutputs s t) :
    OutcomesAgree SameButOutputs (execLookup s) (execLookup t) := by
  simp only [Machine.execLookup, h.run, h.phase]
  split
  · rfl
  · exact h.lookupOp _
  · rfl

theorem SameButOutputs.execDrive {s t : State} (h : SameButOutputs s t) :
    OutcomesAgree SameButOutputs (execDrive s) (execDrive t) := by
  simp only [Machine.execDrive, h.run, h.phase]
  split
  · rfl
  · exact h.driveOp _
  · rfl

theorem SameButOutputs.exec {s t : State} (h : SameButOutputs s t) (i : Instr) :
    OutcomesAgree SameButOutputs (exec i s) (exec i t) := by
  cases i with
  | iter => exact whenRunning_agree .iterOp h
  | sample => exact whenRunning_agree .sampleOp h
  | lookup => exact h.execLookup
  | drive => exact h.execDrive
  | rom0 | rom1 | rom2 | rom3 | rom4 | rom5 | rom6 | rom7 | rom8 | rom9 | rom10 | rom11 | rom12 | rom13 | rom14 | rom15 =>
    exact whenRunning_agree (fun h => h.lookupOp _) h

theorem SameButOutputs.haltedStep {s t : State} (h : SameButOutputs s t) (c : Cause) :
    OutcomesAgree SameButOutputs (haltedStep c s) (haltedStep c t) := by
  simp only [Machine.haltedStep, h.nextTurn]
  split
  · exact .applyMoves _ h.takeTurn
  · rfl

theorem SameButOutputs.step {s t : State} (h : SameButOutputs s t) :
    OutcomesAgree SameButOutputs (step s) (step t) := by
  simp only [Machine.step, fetchBytes, h.run, h.phase]
  split
  · exact h.haltedStep _
  · split
    · exact h.exec _
    · rfl

/-- Settles O36: every operation the instructions and the step are made of gives related ends from related states. -/
theorem nothingReadsTheOutputs : Obligations.NothingReadsTheOutputs := by
  unfold Obligations.NothingReadsTheOutputs
  exact fun s t h => ⟨h.exec, h.step⟩

end Sys2Proof.Machine
end

section
/-! PROOFS. The two invariants of the loop: what the outputs show (42_output_driver.md R105, R106) and what a halt leaves
(60_exceptions.md R133, R137 to R141, R147). Each holds at power-on, and every operation keeps it. -/

namespace Sys2Proof.Machine

/-! ### The outputs show one entry -/

/-- What the outputs of a running block show: one table entry, or what a platform fixes at reset. -/
def ShowsEntryOrReset (s : State) : Prop := (∃ a : Addr, Shows s (table s.params a)) ∨ ShowsReset s

theorem Weak.showsEntryOrReset {s t : State} (h : Weak s t) (hs : ShowsEntryOrReset s) : ShowsEntryOrReset t := by
  obtain ⟨a, ha⟩ | hreset := hs
  · exact .inl ⟨a, by rw [h.reach.keeps.1]; exact h.shows ha⟩
  · exact .inr (h.showsReset hreset)

/-- Where no pattern is in flight, the invariant speaks of the outputs alone. -/
theorem outputInv_of_no_pattern {s : State} (hs : s.run = .running → ShowsEntryOrReset s)
    (hp : ∀ p, s.phase ≠ .drive p) : OutputInv s :=
  fun hrun => ⟨hs hrun, fun p h => absurd h (hp p)⟩

theorem ResetReach.outputInv {s t : State} (h : ResetReach s t) : OutputInv t := by
  obtain ⟨_, _, hphase, hshows⟩ := h.keeps
  exact outputInv_of_no_pattern (fun _ => .inr hshows) (by simp [hphase])

/-- After a failure the run is halted, or was reset during the safe-state drive. -/
theorem takeFailure_outputInv (c : Cause) (later : List Cause) (s : State) : OutputInv (takeFailure c later s) := by
  obtain ⟨_, he⟩ | ⟨_, s', _, _, he⟩ | ⟨_, hreset⟩ := takeFailure_cases c later s
  · rw [he]; exact fun hrun => by cases hrun
  · rw [he]; exact fun hrun => by cases hrun
  · exact hreset.outputInv

theorem sampleOp_outputInv {s : State} (hrun : s.run = .running) (h : OutputInv s) : OutputInv (sampleOp s) := by
  obtain ⟨a, s', hweak, he⟩ | ⟨i, s', _, _, he⟩ | hreset := sampleOp_cases s
  · rw [he]
    exact outputInv_of_no_pattern (fun _ => hweak.showsEntryOrReset (h hrun).1) (by simp)
  · rw [he]; exact takeFailure_outputInv _ _ _
  · exact hreset.outputInv

theorem lookupOp_outputInv {s : State} (a : Addr) (hrun : s.run = .running) (h : OutputInv s) :
    OutputInv (lookupOp a.toNat s) := by
  rw [lookupOp_addr]
  exact fun _ => ⟨(h hrun).1, fun p hp => ⟨a, (Phase.drive.inj hp).symm⟩⟩

/-- A DRIVE that completes leaves every defined line at its bit of the entry in flight. -/
theorem driveOp_outputInv {s : State} (a : Addr) : OutputInv (driveOp (table s.params a) s) := by
  obtain ⟨s', hreach, hshows, he⟩ | ⟨i, lost, s', _, _, _, _, he⟩ | hreset := driveOp_cases (table s.params a) s
  · rw [he]
    exact outputInv_of_no_pattern (fun _ => .inl ⟨a, by rw [hreach.keeps.1]; exact hshows⟩) (by simp)
  · rw [he]; exact takeFailure_outputInv _ _ _
  · exact hreset.outputInv

/-- The top of the loop has no pattern in flight. -/
theorem OutputInv.withLoopTop {s : State} (h : OutputInv s) (ph : Phase) : OutputInv { s with phase := loopTop ph } :=
  outputInv_of_no_pattern (fun hrun => (h hrun).1) (by cases ph <;> simp [loopTop])

theorem iterOp_outputInv {s : State} (hrun : s.run = .running) (h : OutputInv s) : OutputInv (iterOp s) := by
  obtain ⟨a, ha, hiter⟩ | ⟨_, hiter⟩ := iterOp_cases s
  · have hparams : (lookupOp a.toNat (sampleOp s)).params = s.params := by simp
    rw [hiter, ← hparams]
    exact (driveOp_outputInv a).withLoopTop _
  · rw [hiter]
    exact (sampleOp_outputInv hrun h).withLoopTop _

/-- Everything a step that gives a next state can have done, in a running machine and in a halted one. -/
theorem step_next_ops {s t : State} (h : step s = .next t) :
    (s.run = .running ∧ ((s.phase = .iter ∧ t = iterOp s) ∨ (s.phase = .sample ∧ t = sampleOp s) ∨
      (∃ a, s.phase = .lookup a ∧ t = lookupOp a.toNat s) ∨ ∃ p, s.phase = .drive p ∧ t = driveOp p s)) ∨
    ResetReach s t := by
  cases hrun : s.run with
  | running =>
    rw [step_running hrun] at h
    obtain rfl := Host.Outcome.next.inj h
    cases s.phase <;> simp
  | halted c later =>
    rw [step_halted hrun] at h
    exact .inr (haltedStep_next h)

/-- Settles O38: each operation keeps the invariant, and a reset meets it. -/
theorem stepKeepsOutputsOneEntry : Obligations.StepKeepsOutputsOneEntry := by
  unfold Obligations.StepKeepsOutputsOneEntry
  intro s t h hstep
  obtain ⟨hrun, ⟨_, rfl⟩ | ⟨_, rfl⟩ | ⟨a, _, rfl⟩ | ⟨p, hp, rfl⟩⟩ | hreset := step_next_ops hstep
  · exact iterOp_outputInv hrun h
  · exact sampleOp_outputInv hrun h
  · exact lookupOp_outputInv a hrun h
  · obtain ⟨a, rfl⟩ := (h hrun).2 p hp
    exact driveOp_outputInv a
  · exact hreset.outputInv

/-- At power-on no line has a defined value (10_state.md R26). -/
theorem observe_reset (i : OutLine) : observe State.reset i = none := by
  simp [observe, State.reset]

/-- Settles O39: no line is defined and no pattern is in flight. -/
theorem resetShowsNoMixture : Obligations.ResetShowsNoMixture := by
  unfold Obligations.ResetShowsNoMixture
  exact outputInv_of_no_pattern (fun _ => .inr fun i b h => by simp [observe_reset] at h) (by simp [State.reset])

/-! ### What a halt leaves -/

theorem haltInv_of_running {s : State} (h : s.run = .running) : HaltInv s := by
  intro c later hhalted
  rw [h] at hhalted
  cases hhalted

theorem ResetReach.haltInv {s t : State} (h : ResetReach s t) : HaltInv t :=
  haltInv_of_running h.keeps.2.1

/-- The causes a halt may name under a policy: no InvariantFailure, none twice, one alone after a read or under `abort`. -/
structure CausesOk (policy : FailPolicy) (c : Cause) (later : List Cause) : Prop where
  noInvariantFailure : ∀ d ∈ c :: later, d ≠ .invariantFailure
  nodup : (c :: later).Nodup
  readAlone : ∀ i, .inputReadFailure i ∈ c :: later → later = []
  abortAlone : policy = .abort → later = []

theorem causesOk_read (policy : FailPolicy) (i : InLine) : CausesOk policy (.inputReadFailure i) [] where
  noInvariantFailure := by simp
  nodup := by simp
  readAlone := by simp
  abortAlone := by simp

theorem causesOk_writes {policy : FailPolicy} {i : OutLine} {lost : List OutLine} (hnodup : (i :: lost).Nodup)
    (habort : policy = .abort → lost = []) :
    CausesOk policy (.outputWriteFailure i) (lost.map .outputWriteFailure) where
  noInvariantFailure := by simp
  nodup := (List.nodup_map_iff fun _ _ h => Cause.outputWriteFailure.inj h).mpr hnodup
  readAlone := by simp
  abortAlone := fun h => by simp [habort h]

/-- What taking a failure leaves is what its policy says of a halt, or a reset ended the safe-state drive. -/
theorem takeFailure_haltInv {c : Cause} {later : List Cause} {s : State} (h : CausesOk s.params.failPolicy c later) :
    HaltInv (takeFailure c later s) := by
  obtain ⟨hpolicy, he⟩ | ⟨hpolicy, s', hreach, hlow, he⟩ | ⟨_, hreset⟩ := takeFailure_cases c later s
  · rw [he]
    intro d ds hhalted
    obtain rfl := h.abortAlone hpolicy
    obtain ⟨rfl, rfl⟩ := Run.halted.inj hhalted
    exact ⟨.inl rfl, h.noInvariantFailure, h.nodup, h.readAlone, fun _ => ⟨rfl, rfl⟩, by simp [hpolicy]⟩
  · rw [he]
    intro d ds hhalted
    obtain ⟨rfl, rfl⟩ := Run.halted.inj hhalted
    exact ⟨.inl rfl, h.noInvariantFailure, h.nodup, h.readAlone, by simp [hreach.keeps.1, hpolicy], fun _ => hlow⟩
  · exact hreset.haltInv

theorem sampleOp_haltInv {s : State} (hrun : s.run = .running) : HaltInv (sampleOp s) := by
  obtain ⟨a, s', hweak, he⟩ | ⟨i, s', _, _, he⟩ | hreset := sampleOp_cases s
  · rw [he]; exact haltInv_of_running (hweak.reach.keeps.2.1.trans hrun)
  · rw [he]; exact takeFailure_haltInv (causesOk_read _ i)
  · exact hreset.haltInv

theorem driveOp_haltInv {s : State} (p : Pattern) (hrun : s.run = .running) : HaltInv (driveOp p s) := by
  obtain ⟨s', hreach, _, he⟩ | ⟨i, lost, s', hreach, hnodup, _, habort, he⟩ | hreset := driveOp_cases p s
  · rw [he]; exact haltInv_of_running (hreach.keeps.2.1.trans hrun)
  · rw [he]; exact takeFailure_haltInv (causesOk_writes hnodup (by rwa [hreach.keeps.1]))
  · exact hreset.haltInv

theorem HaltInv.withLoopTop {s : State} (h : HaltInv s) (ph : Phase) : HaltInv { s with phase := loopTop ph } :=
  fun c later hhalted => ⟨by cases ph <;> simp [loopTop], (h c later hhalted).2⟩

theorem lookupOp_run (a : Addr) (s : State) : (lookupOp a.toNat s).run = s.run := by
  rw [lookupOp_addr]

theorem iterOp_haltInv {s : State} (hrun : s.run = .running) : HaltInv (iterOp s) := by
  obtain ⟨a, ha, hiter⟩ | ⟨_, hiter⟩ := iterOp_cases s
  · rw [hiter]
    refine (driveOp_haltInv _ ?_).withLoopTop _
    rw [lookupOp_run, (iterOp_of_sample ha).2.2, hrun]
  · rw [hiter]
    exact (sampleOp_haltInv hrun).withLoopTop _

/-- Settles O40: only a failure halts, and what it leaves is said by `takeFailure_haltInv`. -/
theorem stepKeepsTheHaltReport : Obligations.StepKeepsTheHaltReport := by
  unfold Obligations.StepKeepsTheHaltReport
  intro s t _ hstep
  obtain ⟨hrun, ⟨_, rfl⟩ | ⟨_, rfl⟩ | ⟨a, _, rfl⟩ | ⟨p, _, rfl⟩⟩ | hreset := step_next_ops hstep
  · exact iterOp_haltInv hrun
  · exact sampleOp_haltInv hrun
  · exact haltInv_of_running ((lookupOp_run a s).trans hrun)
  · exact driveOp_haltInv p hrun
  · exact hreset.haltInv

/-- Settles O41: the run state at power-on is Running. -/
theorem resetHasNoHaltReport : Obligations.ResetHasNoHaltReport := by
  unfold Obligations.ResetHasNoHaltReport
  exact haltInv_of_running reset_run

end Sys2Proof.Machine
end

section
/-! PROOFS. The step (10_state.md R18, 60_exceptions.md R135, R142, R148): what it runs, that it is never refused, when it halts and
how a halt ends. -/

namespace Sys2Proof.Machine

/-! ### What a step runs -/

/-- Settles O3: the decoded instruction is all that a step of a running machine runs. -/
theorem stepRunsTheDecodedRow : Obligations.StepRunsTheDecodedRow := by
  unfold Obligations.StepRunsTheDecodedRow
  intro s i rest h hdecode
  simp only [step, h, hdecode]

/-- Settles O5: a running step is one of the four operations, a halted one a reset or the fault. -/
theorem stepIsNeverRefused : Obligations.StepIsNeverRefused := by
  unfold Obligations.StepIsNeverRefused
  intro s r
  cases hrun : s.run with
  | running => simp [step_running hrun]
  | halted c later =>
    rw [step_halted hrun, haltedStep]
    split <;> simp

/-! ### A placed word -/

/-- Where in the iteration a byte places an instruction (log 2): an ADDR4 row after the SAMPLE of its Address, a SEQ row where the
upper four bits say. -/
abbrev Places (b : Byte) (i : Instr) : Prop :=
  ((b >>> 4).toNat = 0 ∧ rowOfAddr (b.truncate 4) = some i) ∨ ((b >>> 4).toNat = 1 ∧ i = .sample) ∨
    ((b >>> 4).toNat = 2 ∧ i = .lookup) ∨ ((b >>> 4).toNat = 3 ∧ i = .drive) ∨ ((b >>> 4).toNat = 4 ∧ i = .iter)

theorem places_of_decodeByte {b : Byte} {i : Instr} (h : decodeByte b = some i) : Places b i := by
  have hplaces : ∀ r ∈ rows, ∀ aaaa : Addr, Places (r.value ||| (aaaa.zeroExtend 8 &&& ~~~r.mask)) r.instr := by decide
  obtain ⟨r, hfind, rfl⟩ := Option.map_eq_some_iff.mp h
  have hr : r ∈ rows := List.mem_of_find?_eq_some hfind
  have hselects : r.selects b = true := List.find?_some (p := fun q : Row => q.selects b) hfind
  have hplace := hplaces r hr (b.truncate 4)
  rwa [byte_of_selects hr hselects] at hplace

/-- A DRIVE is placed with the pattern in flight, or with a free one. -/
theorem placeDrive_phase (s : State) : ∃ p, (placeDrive s).phase = .drive p := by
  unfold placeDrive
  split
  · next p hp => exact ⟨p, hp⟩
  · exact ⟨_, rfl⟩

theorem placeDrive_frame (s : State) :
    placeDrive s = { s with phase := (placeDrive s).phase, draws := (placeDrive s).draws } := by
  unfold placeDrive
  split <;> rfl

theorem placeByte_frame (b : Byte) (s : State) :
    placeByte b s = { s with phase := (placeByte b s).phase, draws := (placeByte b s).draws } := by
  unfold placeByte
  split
  · rfl
  · rfl
  · rfl
  · exact placeDrive_frame s
  · rfl
  · rfl

/-- The step of a placed state runs the instruction placed: its phase is that instruction's. -/
theorem step_placeByte {b : Byte} {i : Instr} {s : State} (h : s.run = .running) (hb : Places b i) :
    step (placeByte b s) = exec i (placeByte b s) := by
  have hrun : (placeByte b s).run = .running := by rw [placeByte_frame]; exact h
  obtain ⟨hplace, hrow⟩ | ⟨hplace, rfl⟩ | ⟨hplace, rfl⟩ | ⟨hplace, rfl⟩ | ⟨hplace, rfl⟩ := hb
  · have hphase : (placeByte b s).phase = .lookup (b.truncate 4) := by simp only [placeByte, hplace]
    exact step_eq_exec_row hrun hphase hrow
  · have hphase : (placeByte b s).phase = .sample := by simp only [placeByte, hplace]
    rw [step_running hrun, hphase, exec_sample hrun]
  · have hphase : (placeByte b s).phase = .lookup (b.truncate 4) := by simp only [placeByte, hplace]
    rw [step_running hrun, hphase, exec_lookup hrun hphase]
  · obtain ⟨p, hdrive⟩ := placeDrive_phase s
    have hphase : (placeByte b s).phase = .drive p := by simp only [placeByte, hplace, hdrive]
    rw [step_running hrun, hphase, exec_drive hrun hphase]
  · have hphase : (placeByte b s).phase = .iter := by simp only [placeByte, hplace]
    rw [step_running hrun, hphase, exec_iter hrun]

theorem decodeByte_of_decodeTableWord {nbits w : Nat} {i : Instr} (h : decodeTableWord nbits w = some i) :
    decodeByte (BitVec.ofNat 8 w) = some i := by
  unfold decodeTableWord at h
  split at h
  · split at h
    · next j hdecode =>
      obtain rfl := Option.some.inj h
      obtain ⟨b, hbytes, hb⟩ := decode_eq_ok hdecode
      rwa [(List.cons.inj hbytes).1]
    · cases h
  · cases h

/-- Settles O4: the byte of the word places its instruction, and placing touches no other field. -/
theorem placedWordRunsNext : Obligations.PlacedWordRunsNext := by
  unfold Obligations.PlacedWordRunsNext
  intro s nbits w i h hdecode
  exact ⟨step_placeByte h (places_of_decodeByte (decodeByte_of_decodeTableWord hdecode)), placeByte_frame _ s⟩

/-! ### Infallible lines -/

/-- Without a failure a SAMPLE halts nothing. -/
theorem sampleOp_run_of_infallible {s : State} (hrun : s.run = .running) (hinf : s.params.linesInfallible = true) :
    (sampleOp s).run = .running := by
  obtain ⟨a, s', hweak, he⟩ | ⟨i, s', _, hfallible, _⟩ | hreset := sampleOp_cases s
  · rw [he]; exact hweak.reach.keeps.2.1.trans hrun
  · rw [hinf] at hfallible; cases hfallible
  · exact hreset.keeps.2.1

theorem driveOp_run_of_infallible {s : State} (p : Pattern) (hrun : s.run = .running)
    (hinf : s.params.linesInfallible = true) : (driveOp p s).run = .running := by
  obtain ⟨s', hreach, _, he⟩ | ⟨i, lost, s', _, _, hfallible, _⟩ | hreset := driveOp_cases p s
  · rw [he]; exact hreach.keeps.2.1.trans hrun
  · rw [hinf] at hfallible; cases hfallible
  · exact hreset.keeps.2.1

theorem iterOp_run_of_infallible {s : State} (hrun : s.run = .running) (hinf : s.params.linesInfallible = true) :
    (iterOp s).run = .running := by
  obtain ⟨a, _, hiter⟩ | ⟨_, hiter⟩ := iterOp_cases s
  · rw [hiter]
    exact driveOp_run_of_infallible _ ((lookupOp_run a _).trans (sampleOp_run_of_infallible hrun hinf)) (by simp [hinf])
  · rw [hiter]
    exact sampleOp_run_of_infallible hrun hinf

/-- Settles O27: none of the operations halts without a failure, and a reset leaves the machine running. -/
theorem infallibleLinesNeverHalt : Obligations.InfallibleLinesNeverHalt := by
  unfold Obligations.InfallibleLinesNeverHalt
  intro s t hrun hinf hstep
  obtain ⟨_, ⟨_, rfl⟩ | ⟨_, rfl⟩ | ⟨a, _, rfl⟩ | ⟨p, _, rfl⟩⟩ | hreset := step_next_ops hstep
  · exact iterOp_run_of_infallible hrun hinf
  · exact sampleOp_run_of_infallible hrun hinf
  · exact (lookupOp_run a s).trans hrun
  · exact driveOp_run_of_infallible p hrun hinf
  · exact hreset.keeps.2.1

/-! ### Halt and reset -/

theorem haltedStep_of_reset {c : Cause} {s : State} (h : hasReset (nextTurn s).moves = true) :
    ∃ u, haltedStep c s = .next u ∧ ResetReach s u :=
  ⟨applyMoves (nextTurn s).moves (takeTurn s), if_pos h,
    .of_reach (.single (.weak (.turn s))) (applyMoves_reset _ _ h)⟩

/-- Settles O28: an instruction faults, and the step is a reset or the fault. -/
theorem haltedEndsOnlyByReset : Obligations.HaltedEndsOnlyByReset := by
  unfold Obligations.HaltedEndsOnlyByReset
  intro s c later h
  rw [step_halted h]
  refine ⟨exec_halted h, fun hno => by simp [haltedStep, hno], fun hreset => ?_⟩
  obtain ⟨u, hstep, hreach⟩ := haltedStep_of_reset hreset
  obtain ⟨hparams, hrun, hphase, hshows⟩ := hreach.keeps
  exact ⟨u, hstep, hrun, hphase, hparams, fun i b hb => hparams ▸ hshows i b hb⟩

/-- Settles O31: no mark stands at power-on, and after a reset only those of the lines a platform fixes. -/
theorem resetDefinesNoOutputLine : Obligations.ResetDefinesNoOutputLine := by
  unfold Obligations.ResetDefinesNoOutputLine
  exact ⟨rfl, observe_reset, fun s => ⟨deviceReset_phase s, observe_deviceReset s⟩⟩

end Sys2Proof.Machine
end

section
/-! PROOFS. The rows of the ROM from every running state (41_program_table.md R81 to R96, R98), and an index outside the table. -/

namespace Sys2Proof.Machine

/-- A row reads an entry when its Address selects it and the table has that entry there. -/
theorem rowReads_of_table_eq {i : Instr} {a : Addr} {entry : Params → Pattern} (hi : rowOfAddr a = some i)
    (htable : ∀ p, table p a = entry p) : RowReads i a entry := by
  refine ⟨hi, fun s h => ?_⟩
  rw [exec_rowOfAddr h hi, lookupOp_addr, htable]

/-- Settles O13: each printed Address selects its row and the table has the literal there; the high lines are the set bits. -/
theorem printedRowsReadTheirLiterals : Obligations.PrintedRowsReadTheirLiterals := by
  unfold Obligations.PrintedRowsReadTheirLiterals
  refine ⟨?rom1, ?rom9, ?rom10, ?rom11, ?rom12, ?rom13, ?rom14, ?rom15, ?driveB6, ?driveF0, ?drive00⟩
  case rom1 | rom9 | rom10 | rom11 | rom12 | rom13 | rom14 | rom15 =>
    exact rowReads_of_table_eq (by decide) fun _ => rfl
  case driveB6 | driveF0 | drive00 => exact drivingMakesHigh_of_bits (by decide)

/-- Settles O14: each open Address selects its row and the table has the parameter there. -/
theorem openRowsReadTheirParameters : Obligations.OpenRowsReadTheirParameters := by
  unfold Obligations.OpenRowsReadTheirParameters
  refine ⟨?rom0, ?rom2, ?rom3, ?rom4, ?rom5, ?rom6, ?rom7, ?rom8⟩
  case rom0 | rom2 | rom3 | rom4 | rom5 | rom6 | rom7 | rom8 => exact rowReads_of_table_eq (by decide) fun _ => rfl

/-- Settles O17: there is no such entry, so the lookup is the halt that leaves `OUT` as `abort` does. -/
theorem indexOutsideTheTableHalts : Obligations.IndexOutsideTheTableHalts := by
  unfold Obligations.IndexOutsideTheTableHalts
  intro s n hn
  have hlookup : lookupOp n s = haltAbort .invariantFailure s := by simp only [lookupOp, romEntry_eq_none _ hn]
  simp [hlookup]

end Sys2Proof.Machine
end

section
/-! PROOFS. SAMPLE where every read succeeds and the environment at most sets input lines (40_address_sampler.md R70, R72, R75),
and DRIVE and ITER at such turns (42_output_driver.md R105, 43_control_loop.md R110). -/

namespace Sys2Proof.Machine

/-! ### Quiet turns -/

/-- Settles O7: the SAMPLE at quiet turns is written out. -/
theorem sampleComposesThePresentedAddress : Obligations.SampleComposesThePresentedAddress := by
  unfold Obligations.SampleComposesThePresentedAddress
  intro s h hquiet
  rw [exec_sample h, sampleOp_quiet hquiet]

/-- 40_address_sampler.md R75: an unconnected line reads the pull level. -/
theorem inputLevel_unconnected {s : State} {i : InLine} (h : inputSource s.inputs i = .unconnected) :
    inputLevel s i = s.params.pullLevel := by
  rw [inputLevel, h, sourceLevel]

/-- With no line connected every bit of the Address is the pull level. -/
theorem presentedAddress_unconnected {s : State} (h : ∀ i, inputSource s.inputs i = .unconnected) :
    presentedAddress s = if s.params.pullLevel then 15#4 else 0#4 := by
  have hall : ∀ (b : Level) (i : InLine), bitOf (if b then 15#4 else 0#4) i = b := by decide
  exact eq_of_bitOf_eq fun i => by rw [bitOf_presentedAddress, inputLevel_unconnected (h i), hall]

/-- Settles O12: the Address presented is the pull level in every bit. -/
theorem unconnectedInputsReadThePullLevel : Obligations.UnconnectedInputsReadThePullLevel := by
  unfold Obligations.UnconnectedInputsReadThePullLevel
  refine ⟨fun s i h => inputLevel_unconnected h, fun s h hquiet hnone => ⟨sampleOp s, exec_sample h, ?_⟩⟩
  rw [sampleOp_quiet hquiet, presentedAddress_unconnected hnone]

/-- Settles O11: a SAMPLE with an Address is a chain of moves that keeps the run state and the parameters and defines no line. -/
theorem completedSampleDefinesNoOutput : Obligations.CompletedSampleDefinesNoOutput := by
  unfold Obligations.CompletedSampleDefinesNoOutput
  intro s u a h hexec ha
  rw [exec_sample h] at hexec
  obtain rfl := Host.Outcome.next.inj hexec
  obtain ⟨s', hweak, he⟩ := sampleOp_of_address ha
  obtain ⟨hparams, hrun, -⟩ := hweak.reach.keeps
  rw [he]
  exact ⟨hrun.trans h, hparams, fun i b hb => hweak.observe hb⟩

/-! ### Inputs that change between the reads -/

/-- Settles O8: the SAMPLE at calm turns is written out. -/
theorem sampleReadsEachLineAtItsInstant : Obligations.SampleReadsEachLineAtItsInstant := by
  unfold Obligations.SampleReadsEachLineAtItsInstant
  intro s h hcalm
  obtain ⟨a, tr, hsample, hbits, hrecord⟩ := sampleOp_calm hcalm
  exact ⟨a, tr, by rw [exec_sample h, hsample], hbits, hrecord⟩

/-! ### Every order has a number -/

theorem insertAt_length_append {α : Type} (x : α) (l2 : List α) : ∀ l1 : List α,
    insertAt l1.length x (l1 ++ l2) = l1 ++ x :: l2
  | [] => rfl
  | y :: l1 => congrArg (y :: ·) (insertAt_length_append x l2 l1)

/-- Every order of a list has a number. -/
theorem exists_permute {α : Type} : ∀ {l0 l : List α}, l.Perm l0 → ∃ k, permute k l0 = l
  | [], l, h => ⟨0, by rw [h.eq_nil]; rfl⟩
  | x :: l0, l, h => by
    obtain ⟨l1, l2, rfl⟩ := List.append_of_mem (h.mem_iff.mpr (List.mem_cons_self ..))
    obtain ⟨k, hk⟩ := exists_permute (l := l1 ++ l2) (l0 := l0) (List.perm_middle.symm.trans h).cons_inv
    have hlen : l1.length < l0.length + 1 := by
      have := h.length_eq
      simp at this
      omega
    refine ⟨l1.length + (l0.length + 1) * k, ?_⟩
    have hdiv : (l1.length + (l0.length + 1) * k) / (l0.length + 1) = k := by
      rw [Nat.add_mul_div_left _ _ (Nat.succ_pos _), Nat.div_eq_of_lt hlen, Nat.zero_add]
    rw [permute, Nat.add_mul_mod_self_left, Nat.mod_eq_of_lt hlen, hdiv, hk, insertAt_length_append]

/-- Settles O10: the number of the order names it wherever the next turn carries it, and the operations record that order. -/
theorem everyOrderOfLinesCanOccur : Obligations.EveryOrderOfLinesCanOccur := by
  unfold Obligations.EveryOrderOfLinesCanOccur
  refine ⟨fun l hl => ?reads, fun l hl => ?writes⟩
  case reads =>
    obtain ⟨k, hk⟩ := exists_permute hl
    refine ⟨k, fun s horder => ?_⟩
    have hread : readOrder s = l := by rw [readOrder, horder, hk]
    refine ⟨hread, fun h hcalm => ?_⟩
    obtain ⟨a, tr, hsample, -, -, hanswered, -⟩ := sampleOp_calm hcalm
    exact ⟨sampleOp s, a, tr, exec_sample h, by rw [hsample], by rw [hsample], by rw [hanswered, hread]⟩
  case writes =>
    obtain ⟨k, hk⟩ := exists_permute hl
    refine ⟨k, fun s horder => ?_⟩
    have hwrite : writeOrder s = l := by rw [writeOrder, horder, hk]
    refine ⟨hwrite, fun p h hp hcalm => ?_⟩
    obtain ⟨ws, hdrive, ⟨-, hwritten, -⟩, -⟩ := driveOp_calm p hcalm
    exact ⟨driveOp p s, ws, exec_drive h hp, driveOp_phase p s, by rw [hdrive], by rw [hwritten, hwrite]⟩

/-! ### Every mixture of old and new levels -/

/-- A turn of an environment that sets all four lines in its turn number `m` and does nothing else; the reads' order has number `k`. -/
def mixTurn (new : InputLines) (m k n : Nat) : Turn :=
  { moves := if n = m then setAllInputs new else [], ok := true, order := k }

theorem isCalm_mixTurn (new : InputLines) (m k n : Nat) : isCalm (mixTurn new m k n) = true := by
  by_cases hn : n = m <;> simp [isCalm, mixTurn, hn, setAllInputs, isSetInput]

/-- The first `n` turns of that environment. -/
def mixTurns (new : InputLines) (m k n : Nat) : List Turn := (List.range n).map (mixTurn new m k)

theorem take_mixTurns (new : InputLines) (m k : Nat) {n n' : Nat} (h : n ≤ n') :
    (mixTurns new m k n').take n = mixTurns new m k n := by
  rw [mixTurns, ← List.map_take, List.take_range, min_eq_left h, mixTurns]

theorem beginsWith_mixTurns (new : InputLines) (m k n : Nat) :
    beginsWith isCalm n (mixTurns new m k (n + 1)) = true := by
  simp only [beginsWith, mixTurns, Bool.and_eq_true, List.all_eq_true]
  refine ⟨by simp, fun t ht => ?_⟩
  obtain ⟨j, -, rfl⟩ := List.mem_map.mp (List.mem_of_mem_take ht)
  exact isCalm_mixTurn new m k j

theorem inputsAfterMoves_setAllInputs (new old : InputLines) : inputsAfterMoves (setAllInputs new) old = new := rfl

/-- The lines hold their old levels up to that turn and the new ones from it on. -/
theorem inputsAfterTurns_mixTurns (new old : InputLines) (m k : Nat) : ∀ n : Nat,
    inputsAfterTurns (mixTurns new m k n) old = if m < n then new else old
  | 0 => rfl
  | n + 1 => by
    have hsplit : inputsAfterTurns (mixTurns new m k (n + 1)) old =
        inputsAfterMoves (mixTurn new m k n).moves (if m < n then new else old) := by
      rw [← inputsAfterTurns_mixTurns new old m k n]
      simp [inputsAfterTurns, mixTurns, List.range_succ]
    rw [hsplit]
    by_cases hn : n = m
    · simp [mixTurn, hn, inputsAfterMoves_setAllInputs]
    · have : m < n + 1 ↔ m < n := by omega
      simp [mixTurn, hn, this, inputsAfterMoves]

/-- The lines that keep their old level, then the others. -/
def oldThenNew (changed : InLine → Bool) : List InLine :=
  (inLines.filter fun i => !changed i) ++ inLines.filter fun i => !!changed i

theorem oldThenNew_perm (changed : InLine → Bool) : (oldThenNew changed).Perm inLines :=
  List.filter_append_perm (fun i => !changed i) inLines

/-- Where a line stands in that order tells whether it is to show its new level. -/
theorem exists_oldThenNew_getElem? (changed : InLine → Bool) (i : InLine) : ∃ n, n < 4 ∧
    (oldThenNew changed)[n]? = some i ∧
    ((inLines.filter fun i => !changed i).length < n + 1 ↔ changed i = true) := by
  have hlen : (oldThenNew changed).length = 4 := (oldThenNew_perm changed).length_eq
  have hlt : ∀ n, (oldThenNew changed)[n]? = some i → n < 4 := fun n hn => by
    rw [← hlen]; exact (List.getElem?_eq_some_iff.mp hn).1
  cases hi : changed i with
  | true =>
    have hmem : i ∈ inLines.filter fun i => !!changed i := by simp [mem_inLines, hi]
    obtain ⟨n, hn⟩ := List.mem_iff_getElem?.mp hmem
    have hplace : (oldThenNew changed)[(inLines.filter fun i => !changed i).length + n]? = some i := by
      rw [oldThenNew, List.getElem?_append_right (Nat.le_add_right ..), Nat.add_sub_cancel_left, hn]
    exact ⟨_, hlt _ hplace, hplace, iff_of_true (by omega) rfl⟩
  | false =>
    have hmem : i ∈ inLines.filter fun i => !changed i := by simp [mem_inLines, hi]
    obtain ⟨n, hn⟩ := List.mem_iff_getElem?.mp hmem
    have hnlt : n < (inLines.filter fun i => !changed i).length := (List.getElem?_eq_some_iff.mp hn).1
    have hplace : (oldThenNew changed)[n]? = some i := by rw [oldThenNew, List.getElem?_append_left hnlt, hn]
    exact ⟨n, hlt _ hplace, hplace, by simp; omega⟩

theorem length_old_lt_four_iff (changed : InLine → Bool) :
    (inLines.filter fun i => !changed i).length < 4 ↔ ∃ i, changed i = true := by
  rw [show 4 = inLines.length from rfl, List.length_filter_lt_length_iff_exists]
  simp [mem_inLines]

/-- A SAMPLE in that environment: a line read before turn `m` gives its old level, one read from it on its new one. -/
theorem sampleOp_mixTurns {s : State} {new : InputLines} {m k : Nat}
    (hs : s.script = mixTurns new m k 5) :
    ∃ a, (sampleOp s).phase = .lookup a ∧ (sampleOp s).script = s.script.drop 4 ∧
      (sampleOp s).inputs = (if m < 4 then new else s.inputs) ∧
      ∀ (n : Nat) (i : InLine), n < 4 → (readOrder s)[n]? = some i →
        bitOf a i = sourceLevel s.params.pullLevel (inputSource (if m < n + 1 then new else s.inputs) i) := by
  have hinputs : ∀ n ≤ 5, inputsAfterTurns (s.script.take n) s.inputs = if m < n then new else s.inputs := fun n hn => by
    rw [hs, take_mixTurns _ _ _ hn, inputsAfterTurns_mixTurns]
  obtain ⟨a, tr, hsample, hbits, -⟩ := sampleOp_calm (hs ▸ beginsWith_mixTurns new m k 4)
  refine ⟨a, by rw [hsample], by rw [hsample], by rw [hsample, hinputs 4 (by decide)], fun n i hn hi => ?_⟩
  rw [hbits n i hi, hinputs (n + 1) (by omega)]

theorem getElem?_mixTurns {new : InputLines} {m k n : Nat} {t : Turn}
    (h : (mixTurns new m k 5)[n]? = some t) : t = mixTurn new m k n := by
  obtain ⟨hlt, rfl⟩ := List.getElem?_eq_some_iff.mp h
  simp [mixTurns]

/-- The environment that mixes: the lines change once those outside the set have been read. -/
def mixScript (new : InputLines) (changed : InLine → Bool) (k : Nat) : List Turn :=
  mixTurns new (inLines.filter fun i => !changed i).length k 5

/-- Settles O9: the environment changes the lines once those outside the set have been read, in the order that reads them first. -/
theorem changingInputsCanMixInEveryWay : Obligations.ChangingInputsCanMixInEveryWay := by
  unfold Obligations.ChangingInputsCanMixInEveryWay
  intro s new changed h
  obtain ⟨k, hk⟩ := exists_permute (oldThenNew_perm changed)
  obtain ⟨a, hphase, hscript, hinputs, hbits⟩ := sampleOp_mixTurns (s := { s with script := mixScript new changed k }) rfl
  refine ⟨mixScript new changed k, _, a, by simp [mixScript, mixTurns], fun n t ht => ?turns,
    exec_sample (s := { s with script := mixScript new changed k }) h, hphase, hscript, ?inputs, fun i => ?bit⟩
  case turns =>
    rw [getElem?_mixTurns ht]
    exact ⟨rfl, rfl⟩
  case inputs => simpa only [length_old_lt_four_iff] using hinputs
  case bit =>
    obtain ⟨n, hn, hplace, hiff⟩ := exists_oldThenNew_getElem? changed i
    have horder : readOrder { s with script := mixScript new changed k } = oldThenNew changed := hk
    rw [hbits n i hn (by rw [horder, hplace])]
    simp only [hiff]
    split <;> rfl

/-! ### DRIVE and ITER -/

/-- Settles O20: before its own write a line shows what it showed before the DRIVE, from it on its bit of the pattern. -/
theorem transitionalOutputsMixOldAndNewOnce : Obligations.TransitionalOutputsMixOldAndNewOnce := by
  unfold Obligations.TransitionalOutputsMixOldAndNewOnce
  intro s p h hp hcalm
  obtain ⟨ws, hdrive, hrecord, hshows⟩ := driveOp_calm p hcalm
  refine ⟨driveOp p s, ws, exec_drive h hp, by rw [hdrive], ?eightWrites, fun i => ?place⟩
  case eightWrites => rw [hrecord.length_written, List.length_map, length_writeOrder]
  case place =>
    obtain ⟨n, hn⟩ := List.mem_iff_getElem?.mp (mem_writeOrder s i)
    have hlt : n < 8 := by
      rw [← length_writeOrder s]
      exact (List.getElem?_eq_some_iff.mp hn).1
    exact ⟨n, hlt, hn, fun k e hk => hshows k e hk n i hn⟩

/-- An iteration at calm turns is the SAMPLE, the ROM read and the DRIVE at such turns. -/
theorem iterOp_calm {s : State} (hcalm : beginsWith isCalm 12 s.script = true) :
    ∃ (a : Addr) (rs ws : List Obs) (order : List OutLine),
      iterOp s = { s with
        out := table s.params a, outDefined := allDefined, phase := loopTop s.phase
        inputs := inputsAfterTurns (s.script.take 12) s.inputs
        script := s.script.drop 12
        trace := s.trace ++ rs ++ [.rom a (table s.params a)] ++ ws } ∧
      (sampleOp s).phase = .lookup a ∧
      (∀ (k : Nat) (i : InLine), (readOrder s)[k]? = some i → bitOf a i =
        sourceLevel s.params.pullLevel (inputSource (inputsAfterTurns (s.script.take (k + 1)) s.inputs) i)) ∧
      RecordsReads rs ((s.script.take 4).flatMap Turn.moves) ((readOrder s).map fun i => (i, some (bitOf a i))) ∧
      RecordsWrites ws (((s.script.drop 4).take 8).flatMap Turn.moves)
        (order.map fun i => (i, bitOf (table s.params a) i)) ∧
      order.Perm outLines := by
  obtain ⟨hreads, hwrites⟩ := beginsWith_add (m := 4) (n := 8) hcalm
  obtain ⟨a, rs, hsample, hbits, hrs⟩ := sampleOp_calm hreads
  have ha : (sampleOp s).phase = .lookup a := by rw [hsample]
  have hscript : (lookupOp a.toNat (sampleOp s)).script = s.script.drop 4 := by rw [lookupOp_addr, hsample]
  obtain ⟨ws, hdrive, hws, -⟩ := driveOp_calm (table s.params a) (hscript ▸ hwrites)
  rw [hscript] at hws
  refine ⟨a, rs, ws, writeOrder (lookupOp a.toNat (sampleOp s)), ?_, ha, hbits, hrs, hws, writeOrder_perm _⟩
  rw [(iterOp_of_sample ha).1, hdrive, lookupOp_addr, hsample, inputsAfterTurns_add 4 8]
  simp

/-- Settles O32: the iteration at calm turns is written out, and at quiet reads the Address is the one presented. -/
theorem iterationDrivesTheEntryOfItsAddress : Obligations.IterationDrivesTheEntryOfItsAddress := by
  unfold Obligations.IterationDrivesTheEntryOfItsAddress
  intro s h hcalm
  obtain ⟨a, rs, ws, order, hiter, ha, hbits, hrs, hws, horder⟩ := iterOp_calm hcalm
  refine ⟨a, rs, ws, order, by rw [exec_iter h, hiter], hbits, fun hquiet => ?_, hrs, permute_perm _ _, hws, horder⟩
  rw [sampleOp_quiet hquiet] at ha
  exact (Phase.lookup.inj ha).symm

end Sys2Proof.Machine
end

section
/-! PROOFS. One line operation (20_memory.md R38, R39, 60_exceptions.md R138): what an attempt touches, and what the retries of the
policy make of failing turns. -/

namespace Sys2Proof.Machine

/-! ### One attempt -/

/-- Settles O22: a read leaves its event, a write its line and its event. -/
theorem lineOperationsTouchTheirLineOnly : Obligations.LineOperationsTouchTheirLineOnly := by
  unfold Obligations.LineOperationsTouchTheirLineOnly
  refine ⟨fun i s => ⟨rfl, rfl⟩, fun i b s => ⟨?done, ?lost⟩⟩
  case done =>
    exact ⟨writeDone i b s, rfl, by simp [observe_writeDone], fun j hj => by simp [observe_writeDone, hj], rfl⟩
  case lost =>
    refine ⟨writeLost i b s, rfl, by simp [observe_writeLost], fun j hj => ⟨?_, ?_⟩, rfl⟩
    · simp [observe_writeLost, hj]
    · simp [hj]

/-- One attempt at a listed failing turn. -/
theorem attempt_failing {α : Type} {act : Bool → State → LineResult α} {s : State} {t : Turn} {ts : List Turn}
    (h : s.script = t :: ts) (ht : isFailing t = true) (hinf : s.params.linesInfallible = false) :
    attempt act s = act false { s with script := ts } := by
  obtain ⟨hmoves, hok⟩ := isFailing_iff.mp ht
  rw [attempt_plain h hmoves, hok, hinf, Bool.or_false]

/-- One attempt at a listed turn that resets the device. -/
theorem attempt_reset {α : Type} {act : Bool → State → LineResult α} {s : State} {t : Turn} {ts : List Turn}
    (h : s.script = t :: ts) (ht : t.moves = [.reset]) :
    attempt act s = .reset (deviceReset (record (.env .reset) { s with script := ts })) := by
  simp [attempt, nextTurn_cons h, takeTurn_cons h, ht, hasReset, applyMoves, moveEffect]

theorem withRetry_reset {α : Type} {op : State → LineResult α} {s s' : State} (n : Nat) (h : op s = .reset s') :
    withRetry op n s = .reset s' := by
  cases n <;> simp [withRetry, h]

theorem withRetry_failed_succ {α : Type} {op : State → LineResult α} {s s' : State} {c : Cause} (n : Nat)
    (h : op s = .failed c s') : withRetry op (n + 1) s = withRetry op n s' := by
  simp [withRetry, h]

theorem retries_abort {p : Params} (h : p.failPolicy = .abort) : retries p = 0 := by
  simp [retries, h]

theorem retries_hardened {p : Params} (h : p.failPolicy = .hardened) : retries p = p.retryMax := by
  simp [retries, h]

/-! ### Reads that fail -/

theorem attempt_read_failing {s : State} {t : Turn} {ts : List Turn} (h : s.script = t :: ts) (ht : isFailing t = true)
    (hinf : s.params.linesInfallible = false) (i : InLine) :
    attempt (readAnswer i) s = .failed (.inputReadFailure i)
      { s with script := ts, trace := s.trace ++ [.read i none] } := by
  rw [attempt_failing h ht hinf]
  rfl

/-- Failing turns no more than the retries, and then a quiet one: the read counts (60_exceptions.md R138). -/
theorem withRetry_read_ok (i : InLine) {t : Turn} {fs rest : List Turn} (ht : isQuiet t = true)
    (hfs : fs.all isFailing = true) : ∀ (n : Nat) (s : State), fs.length ≤ n → s.params.linesInfallible = false →
      s.script = fs ++ t :: rest →
      withRetry (attempt (readAnswer i)) n s = .ok (inputLevel s i) { s with
        script := rest
        trace := s.trace ++ List.replicate fs.length (.read i none) ++ [.read i (some (inputLevel s i))] } := by
  induction fs with
  | nil =>
    intro n s _ _ hs
    refine withRetry_ok n ?_
    obtain ⟨hmoves, hok⟩ := isQuiet_iff.mp ht
    simp [attempt_plain hs hmoves, hok, readAnswer, record, inputLevel]
  | cons f fs ih =>
    intro n s hn hinf hs
    simp only [List.all_cons, Bool.and_eq_true] at hfs
    obtain ⟨m, rfl⟩ := Nat.exists_eq_add_of_lt hn
    have hfirst := attempt_read_failing (ts := fs ++ t :: rest) hs hfs.1 hinf i
    have hrest := ih hfs.2 (fs.length + m) { s with script := fs ++ t :: rest, trace := s.trace ++ [.read i none] }
      (Nat.le_add_right ..) hinf rfl
    rw [withRetry_failed_succ _ hfirst, hrest]
    simp [inputLevel, List.replicate_succ]

/-- One failing turn more than the retries: the read has failed for good. -/
theorem withRetry_read_failed (i : InLine) {fs rest : List Turn} (hfs : fs.all isFailing = true) :
    ∀ (n : Nat) (s : State), fs.length = n + 1 → s.params.linesInfallible = false → s.script = fs ++ rest →
      withRetry (attempt (readAnswer i)) n s = .failed (.inputReadFailure i) { s with
        script := rest, trace := s.trace ++ List.replicate fs.length (.read i none) } := by
  induction fs with
  | nil => intro n s hn; cases hn
  | cons f fs ih =>
    intro n s hn hinf hs
    simp only [List.all_cons, Bool.and_eq_true] at hfs
    have hfirst := attempt_read_failing (ts := fs ++ rest) hs hfs.1 hinf i
    cases n with
    | zero =>
      obtain rfl : fs = [] := by simpa using hn
      exact hfirst
    | succ n =>
      have hrest := ih hfs.2 n { s with script := fs ++ rest, trace := s.trace ++ [.read i none] } (Nat.succ.inj hn) hinf rfl
      rw [withRetry_failed_succ n hfirst, hrest]
      simp [List.replicate_succ]

/-! ### What writes leave -/

/-- What writes leave: the turns still to come, what each output line shows and which writes the record gained; the run state, the
phase, the inputs and the parameters are as before. -/
structure Wrote (writes : List (Option (OutLine × Level))) (rest : List Turn) (shown : OutLine → Option Level)
    (s u : State) : Prop where
  params : u.params = s.params
  run : u.run = s.run
  phase : u.phase = s.phase
  inputs : u.inputs = s.inputs
  script : u.script = rest
  observe : ∀ i, observe u i = shown i
  trace : ∃ ws, u.trace = s.trace ++ ws ∧ ws.map Obs.written = writes

theorem Wrote.trans {w w' : List (Option (OutLine × Level))} {r r' : List Turn} {f f' : OutLine → Option Level}
    {s u v : State} (h : Wrote w r f s u) (h' : Wrote w' r' f' u v) : Wrote (w ++ w') r' f' s v where
  params := h'.params.trans h.params
  run := h'.run.trans h.run
  phase := h'.phase.trans h.phase
  inputs := h'.inputs.trans h.inputs
  script := h'.script
  observe := h'.observe
  trace := by
    obtain ⟨ws, htrace, hwritten⟩ := h.trace
    obtain ⟨ws', htrace', hwritten'⟩ := h'.trace
    exact ⟨ws ++ ws', by rw [htrace', htrace, List.append_assoc], by rw [List.map_append, hwritten, hwritten']⟩

/-- A line written again shows what the second write leaves. -/
theorem Wrote.again {w w' : List (Option (OutLine × Level))} {r r' : List Turn} {i : OutLine} {x x' : Option Level}
    {s u v : State} (h : Wrote w r (Function.update (Machine.observe s) i x) s u)
    (h' : Wrote w' r' (Function.update (Machine.observe u) i x') u v) :
    Wrote (w ++ w') r' (Function.update (Machine.observe s) i x') s v := by
  have hu : Machine.observe u = Function.update (Machine.observe s) i x := funext h.observe
  rw [hu, Function.update_idem] at h'
  exact h.trans h'

theorem wrote_writeDone (i : OutLine) (b : Level) (s : State) (ts : List Turn) :
    Wrote [some (i, b)] ts (Function.update (observe s) i (some b)) s (writeDone i b { s with script := ts }) where
  params := rfl
  run := rfl
  phase := rfl
  inputs := rfl
  script := rfl
  observe j := by rw [observe_writeDone, Function.update_apply]; rfl
  trace := ⟨_, rfl, rfl⟩

theorem wrote_writeLost (i : OutLine) (b : Level) (s : State) (ts : List Turn) :
    Wrote [some (i, b)] ts (Function.update (observe s) i none) s (writeLost i b { s with script := ts }) where
  params := rfl
  run := rfl
  phase := rfl
  inputs := rfl
  script := rfl
  observe j := by rw [observe_writeLost, Function.update_apply]; rfl
  trace := ⟨_, rfl, rfl⟩

theorem attempt_write_failing {s : State} {t : Turn} {ts : List Turn} (h : s.script = t :: ts) (ht : isFailing t = true)
    (hinf : s.params.linesInfallible = false) (i : OutLine) (b : Level) :
    attempt (writeAnswer i b) s = .failed (.outputWriteFailure i) (writeLost i b { s with script := ts }) := by
  rw [attempt_failing h ht hinf]
  rfl

/-- Failing turns no more than the retries, and then a quiet one: the write counts (60_exceptions.md R138). -/
theorem withRetry_write_ok (i : OutLine) (b : Level) {t : Turn} {fs rest : List Turn} (ht : isQuiet t = true)
    (hfs : fs.all isFailing = true) : ∀ (n : Nat) (s : State), fs.length ≤ n → s.params.linesInfallible = false →
      s.script = fs ++ t :: rest →
      ∃ u, withRetry (attempt (writeAnswer i b)) n s = .ok () u ∧
        Wrote (List.replicate (fs.length + 1) (some (i, b))) rest (Function.update (observe s) i (some b)) s u := by
  induction fs with
  | nil =>
    intro n s _ _ hs
    obtain ⟨hmoves, hok⟩ := isQuiet_iff.mp ht
    refine ⟨_, withRetry_ok n ?_, wrote_writeDone i b s rest⟩
    simp [attempt_plain hs hmoves, hok, writeAnswer]
  | cons f fs ih =>
    intro n s hn hinf hs
    simp only [List.all_cons, Bool.and_eq_true] at hfs
    obtain ⟨m, rfl⟩ := Nat.exists_eq_add_of_lt hn
    obtain ⟨u, hu, hwrote⟩ := ih hfs.2 (fs.length + m) (writeLost i b { s with script := fs ++ t :: rest })
      (Nat.le_add_right ..) hinf rfl
    refine ⟨u, ?_, (wrote_writeLost i b s _).again hwrote⟩
    rw [← hu]
    exact withRetry_failed_succ _ (attempt_write_failing hs hfs.1 hinf i b)

/-- One failing turn more than the retries: the write has failed for good. -/
theorem withRetry_write_failed (i : OutLine) (b : Level) {fs rest : List Turn} (hfs : fs.all isFailing = true) :
    ∀ (n : Nat) (s : State), fs.length = n + 1 → s.params.linesInfallible = false → s.script = fs ++ rest →
      ∃ u, withRetry (attempt (writeAnswer i b)) n s = .failed (.outputWriteFailure i) u ∧
        Wrote (List.replicate fs.length (some (i, b))) rest (Function.update (observe s) i none) s u := by
  induction fs with
  | nil => intro n s hn; cases hn
  | cons f fs ih =>
    intro n s hn hinf hs
    simp only [List.all_cons, Bool.and_eq_true] at hfs
    have hfirst := attempt_write_failing hs hfs.1 hinf i b
    cases n with
    | zero =>
      obtain rfl : fs = [] := by simpa using hn
      exact ⟨_, hfirst, wrote_writeLost i b s rest⟩
    | succ n =>
      obtain ⟨u, hu, hwrote⟩ := ih hfs.2 n (writeLost i b { s with script := fs ++ rest }) (Nat.succ.inj hn) hinf rfl
      rw [withRetry_failed_succ n hfirst]
      exact ⟨u, hu, (wrote_writeLost i b s _).again hwrote⟩

/-- Settles O23: the retries of the policy are `RETRY_MAX`, and every failing turn takes one of them. -/
theorem retryUsesTheFirstSuccess : Obligations.RetryUsesTheFirstSuccess := by
  unfold Obligations.RetryUsesTheFirstSuccess
  intro s fs rest t hpolicy hinf hfs
  refine ⟨fun hle ht hs => ⟨fun i => ?readOk, fun i b => ?writeOk⟩,
    fun hlen hs => ⟨fun i => ?readFailed, fun i b => ?writeFailed⟩⟩
  case readOk => rw [inRead, retries_hardened hpolicy, withRetry_read_ok i ht hfs _ s hle hinf hs]
  case readFailed => rw [inRead, retries_hardened hpolicy, withRetry_read_failed i hfs _ s hlen hinf hs]
  case writeOk =>
    obtain ⟨u, hu, hw⟩ := withRetry_write_ok i b ht hfs _ s hle hinf hs
    rw [← retries_hardened hpolicy] at hu
    exact ⟨u, hu, by simp [hw.observe], fun j hj => by simp [hw.observe, hj], hw.run, hw.phase, hw.params, hw.script,
      hw.trace⟩
  case writeFailed =>
    obtain ⟨u, hu, hw⟩ := withRetry_write_failed i b hfs _ s hlen hinf hs
    rw [← retries_hardened hpolicy] at hu
    exact ⟨u, hu, by simp [hw.observe], fun j hj => by simp [hw.observe, hj], hw.run, hw.phase, hw.params, hw.script,
      hw.trace⟩

end Sys2Proof.Machine
end

section
/-! PROOFS. A SAMPLE or DRIVE that something stops or disturbs after some of its line operations: a failure under `abort`
(60_exceptions.md R137), a reset (70_reset_and_hazards.md R160), a level forced onto an output line (R173). -/

namespace Sys2Proof.Machine

/-! ### The lines before, at and after a place in the order -/

theorem eq_take_append_cons_drop {α : Type} {l : List α} {n : Nat} {x : α} (h : l[n]? = some x) :
    l = l.take n ++ x :: l.drop (n + 1) := by
  obtain ⟨hlt, rfl⟩ := List.getElem?_eq_some_iff.mp h
  rw [← List.drop_eq_getElem_cons hlt, List.take_append_drop]

theorem length_take_of_getElem? {α : Type} {l : List α} {n : Nat} {x : α} (h : l[n]? = some x) :
    (l.take n).length = n := by
  obtain ⟨hlt, -⟩ := List.getElem?_eq_some_iff.mp h
  exact List.length_take_of_le (Nat.le_of_lt hlt)

theorem beginsWith_of_append {kind : Turn → Bool} {before after : List Turn} (h : before.all kind = true) :
    beginsWith kind before.length (before ++ after) = true := by
  simp [beginsWith, h]

/-- The reads of the first lines, and then the others. -/
theorem readLines_append {a : Addr} {s' : State} (l2 : List InLine) : ∀ {l1 : List InLine} {acc : Addr} {s : State},
    readLines l1 acc s = .ok a s' → readLines (l1 ++ l2) acc s = readLines l2 a s'
  | [], acc, s, h => by
    obtain ⟨rfl, rfl⟩ := LineResult.ok.inj h
    rfl
  | i :: l1, acc, s, h => by
    simp only [readLines, List.cons_append] at h ⊢
    split at h
    · next b u hread => exact readLines_append l2 h
    · cases h
    · cases h

/-- The writes of the first lines, and then the others. -/
theorem writeLines_append {p : Pattern} {cs : List Cause} {s' : State} (l2 : List OutLine) :
    ∀ {l1 : List OutLine} {causes : List Cause} {s : State},
      writeLines p l1 causes s = .ok cs s' → writeLines p (l1 ++ l2) causes s = writeLines p l2 cs s'
  | [], causes, s, h => by
    obtain ⟨rfl, rfl⟩ := LineResult.ok.inj h
    rfl
  | i :: l1, causes, s, h => by
    simp only [writeLines, List.cons_append] at h ⊢
    split at h
    · next u hwrite => exact writeLines_append l2 h
    · next c u hwrite =>
      split at h
      · cases h
      · next hpolicy => exact writeLines_append l2 h
    · cases h

theorem readLines_cons_failed {i : InLine} {rest : List InLine} {acc : Addr} {s s' : State} {c : Cause}
    (h : inRead i s = .failed c s') : readLines (i :: rest) acc s = .failed c s' := by
  simp only [readLines, h]

theorem readLines_cons_reset {i : InLine} {rest : List InLine} {acc : Addr} {s s' : State}
    (h : inRead i s = .reset s') : readLines (i :: rest) acc s = .reset s' := by
  simp only [readLines, h]

theorem writeLines_cons_ok {p : Pattern} {i : OutLine} {rest : List OutLine} {causes : List Cause} {s s' : State}
    (h : outWrite i (bitOf p i) s = .ok () s') : writeLines p (i :: rest) causes s = writeLines p rest causes s' := by
  simp only [writeLines, h]

theorem writeLines_cons_failed_abort {p : Pattern} {i : OutLine} {rest : List OutLine} {causes : List Cause}
    {s s' : State} {c : Cause} (h : outWrite i (bitOf p i) s = .failed c s') (hpolicy : s'.params.failPolicy = .abort) :
    writeLines p (i :: rest) causes s = .failed c s' := by
  simp only [writeLines, h, hpolicy]

theorem writeLines_cons_failed_hardened {p : Pattern} {i : OutLine} {rest : List OutLine} {causes : List Cause}
    {s s' : State} {c : Cause} (h : outWrite i (bitOf p i) s = .failed c s') (hpolicy : s'.params.failPolicy = .hardened) :
    writeLines p (i :: rest) causes s = writeLines p rest (causes ++ [c]) s' := by
  simp only [writeLines, h, hpolicy]

theorem writeLines_cons_reset {p : Pattern} {i : OutLine} {rest : List OutLine} {causes : List Cause} {s s' : State}
    (h : outWrite i (bitOf p i) s = .reset s') : writeLines p (i :: rest) causes s = .reset s' := by
  simp only [writeLines, h]

/-! ### The end of a SAMPLE or DRIVE from the end of its line operations -/

theorem sampleOp_of_failed {s s' : State} {c : Cause} (h : readLines (readOrder s) 0#4 s = .failed c s') :
    sampleOp s = takeFailure c [] s' := by
  simp only [sampleOp, h]

theorem sampleOp_of_reset {s s' : State} (h : readLines (readOrder s) 0#4 s = .reset s') : sampleOp s = s' := by
  simp only [sampleOp, h]

theorem driveOp_of_ok {p : Pattern} {s s' : State} (h : writeLines p (writeOrder s) [] s = .ok [] s') :
    driveOp p s = { s' with phase := .sample } := by
  simp only [driveOp, h]

theorem driveOp_of_causes {p : Pattern} {s s' : State} {c : Cause} {later : List Cause}
    (h : writeLines p (writeOrder s) [] s = .ok (c :: later) s') : driveOp p s = takeFailure c later s' := by
  simp only [driveOp, h]

theorem driveOp_of_failed {p : Pattern} {s s' : State} {c : Cause}
    (h : writeLines p (writeOrder s) [] s = .failed c s') : driveOp p s = takeFailure c [] s' := by
  simp only [driveOp, h]

theorem driveOp_of_reset {p : Pattern} {s s' : State} (h : writeLines p (writeOrder s) [] s = .reset s') :
    driveOp p s = s' := by
  simp only [driveOp, h]

/-! ### Quiet turns and then another -/

/-- The state after quiet reads of the first `n` lines of the order. -/
def afterReads (s : State) (n : Nat) (rest : List Turn) : State :=
  { s with
    script := rest
    trace := s.trace ++ ((readOrder s).take n).map fun i => .read i (some (inputLevel s i)) }

/-- A SAMPLE whose reads are quiet up to a line: what is left to do are the reads from that line on. -/
theorem readLines_after_quiet {s : State} {before after : List Turn} {line : InLine} (hs : s.script = before ++ after)
    (hbefore : before.all isQuiet = true) (hline : (readOrder s)[before.length]? = some line) :
    ∃ acc, readLines (readOrder s) 0#4 s =
      readLines (line :: (readOrder s).drop (before.length + 1)) acc (afterReads s before.length after) := by
  have hquiet : beginsWith isQuiet ((readOrder s).take before.length).length s.script = true := by
    rw [length_take_of_getElem? hline, hs]
    exact beginsWith_of_append hbefore
  have hreads := readLines_quiet _ 0#4 s hquiet
  rw [length_take_of_getElem? hline, hs, List.drop_left] at hreads
  have hsplit := readLines_append (line :: (readOrder s).drop (before.length + 1)) hreads
  rw [← eq_take_append_cons_drop hline] at hsplit
  exact ⟨_, hsplit⟩

/-- A DRIVE whose writes are quiet up to a line: what is left to do are the writes from that line on. -/
theorem writeLines_after_quiet (p : Pattern) {s : State} {before after : List Turn} {line : OutLine}
    (hs : s.script = before ++ after) (hbefore : before.all isQuiet = true)
    (hline : (writeOrder s)[before.length]? = some line) :
    ∃ (out outDefined : Pattern) (ws : List Obs),
      writeLines p (writeOrder s) [] s = writeLines p (line :: (writeOrder s).drop (before.length + 1)) []
        { s with out := out, outDefined := outDefined, script := after, trace := s.trace ++ ws } ∧
      ws.map Obs.written = ((writeOrder s).take before.length).map fun i => some (i, bitOf p i) := by
  have hquiet : beginsWith isQuiet ((writeOrder s).take before.length).length s.script = true := by
    rw [length_take_of_getElem? hline, hs]
    exact beginsWith_of_append hbefore
  obtain ⟨out, outDefined, ws, hwrites, -, -, hwritten⟩ := writeLines_quiet p _ [] s hquiet
  rw [length_take_of_getElem? hline, hs, List.drop_left] at hwrites
  have hsplit := writeLines_append (line :: (writeOrder s).drop (before.length + 1)) hwrites
  rw [← eq_take_append_cons_drop hline] at hsplit
  exact ⟨out, outDefined, ws, hsplit, hwritten⟩

/-! ### A failure under `abort` -/

theorem takeFailure_abort {s : State} (h : s.params.failPolicy = .abort) (c : Cause) (later : List Cause) :
    takeFailure c later s = haltAbort c s := by
  simp only [takeFailure, h]

/-- 60_exceptions.md R137: under `abort` there is no retry. -/
theorem inRead_failing_abort {s : State} {t : Turn} {ts : List Turn} (h : s.script = t :: ts) (ht : isFailing t = true)
    (hpolicy : s.params.failPolicy = .abort) (hinf : s.params.linesInfallible = false) (i : InLine) :
    inRead i s = .failed (.inputReadFailure i) { s with script := ts, trace := s.trace ++ [.read i none] } := by
  rw [inRead, retries_abort hpolicy]
  exact attempt_read_failing h ht hinf i

theorem outWrite_failing_abort {s : State} {t : Turn} {ts : List Turn} (h : s.script = t :: ts) (ht : isFailing t = true)
    (hpolicy : s.params.failPolicy = .abort) (hinf : s.params.linesInfallible = false) (i : OutLine) (b : Level) :
    outWrite i b s = .failed (.outputWriteFailure i) (writeLost i b { s with script := ts }) := by
  rw [outWrite, retries_abort hpolicy]
  exact attempt_write_failing h ht hinf i b

/-- Settles O24: the operations before the failure are quiet, and the failing one is the last. -/
theorem abortHaltsAtTheFirstFailure : Obligations.AbortHaltsAtTheFirstFailure := by
  unfold Obligations.AbortHaltsAtTheFirstFailure
  intro s before rest t h hpolicy hinf hs hbefore ht
  refine ⟨fun line hline => ?sample, fun p line hp hline => ?drive⟩
  case sample =>
    obtain ⟨acc, hreads⟩ := readLines_after_quiet hs hbefore hline
    have hfailed := inRead_failing_abort (s := afterReads s before.length (t :: rest)) rfl ht hpolicy hinf line
    rw [exec_sample h, sampleOp_of_failed (hreads.trans (readLines_cons_failed hfailed)), takeFailure_abort (by exact hpolicy)]
    rfl
  case drive =>
    obtain ⟨out, outDefined, ws, hwrites, hwritten⟩ := writeLines_after_quiet p hs hbefore hline
    have hfailed := outWrite_failing_abort (t := t) (ts := rest)
      (s := { s with out := out, outDefined := outDefined, script := t :: rest, trace := s.trace ++ ws })
      rfl ht hpolicy hinf line (bitOf p line)
    refine ⟨driveOp p s, ws ++ [.write line (bitOf p line) false (setBit out line (Config.freeLevel s.draws))
      (markUndefined outDefined line)], exec_drive h hp, ?state, ?written⟩
    case state =>
      rw [driveOp_of_failed (hwrites.trans (writeLines_cons_failed_abort hfailed hpolicy)),
        takeFailure_abort (by exact hpolicy)]
      simp [haltAbort, writeLost, record]
    case written => simp [hwritten, List.take_add_one, hline, Obs.written]

/-! ### A reset -/

theorem inRead_reset {s : State} {t : Turn} {ts : List Turn} (h : s.script = t :: ts) (ht : t.moves = [.reset])
    (i : InLine) : inRead i s = .reset (deviceReset (record (.env .reset) { s with script := ts })) :=
  withRetry_reset _ (attempt_reset h ht)

theorem outWrite_reset {s : State} {t : Turn} {ts : List Turn} (h : s.script = t :: ts) (ht : t.moves = [.reset])
    (i : OutLine) (b : Level) : outWrite i b s = .reset (deviceReset (record (.env .reset) { s with script := ts })) :=
  withRetry_reset _ (attempt_reset h ht)

/-- Settles O29: the operations before the reset are quiet, and none follows it. -/
theorem resetCutsAnyOperation : Obligations.ResetCutsAnyOperation := by
  unfold Obligations.ResetCutsAnyOperation
  intro s before rest t h hs hbefore ht
  refine ⟨fun hlt => ?sample, fun p hp hlt => ?drive⟩
  case sample =>
    obtain ⟨line, hline⟩ : ∃ line, (readOrder s)[before.length]? = some line :=
      ⟨_, List.getElem?_eq_getElem (by simpa [readOrder, inLines] using hlt)⟩
    obtain ⟨acc, hreads⟩ := readLines_after_quiet hs hbefore hline
    have hreset := inRead_reset (s := afterReads s before.length (t :: rest)) rfl ht line
    refine ⟨_, exec_sample h, ?_⟩
    rw [sampleOp_of_reset (hreads.trans (readLines_cons_reset hreset))]
    exact ⟨rfl, rfl, rfl, rfl, rfl, rfl, rfl⟩
  case drive =>
    obtain ⟨line, hline⟩ : ∃ line, (writeOrder s)[before.length]? = some line :=
      ⟨_, List.getElem?_eq_getElem (by simpa using hlt)⟩
    obtain ⟨out, outDefined, ws, hwrites, hwritten⟩ := writeLines_after_quiet p hs hbefore hline
    have hreset := outWrite_reset
      (s := { s with out := out, outDefined := outDefined, script := t :: rest, trace := s.trace ++ ws })
      rfl ht line (bitOf p line)
    refine ⟨_, ws, exec_drive h hp, ?_⟩
    rw [driveOp_of_reset (hwrites.trans (writeLines_cons_reset hreset))]
    exact ⟨rfl, rfl, rfl, rfl, rfl, rfl, rfl, hwritten⟩

end Sys2Proof.Machine
end

section
/-! PROOFS. A level forced onto an output line during a DRIVE (70_reset_and_hazards.md R173): it is gone with the line's own write. -/

namespace Sys2Proof.Machine

/-- What calm writes show: the lines written at their bits of the pattern, the others as before. -/
theorem writeLines_calm_observe (p : Pattern) {l : List OutLine} {s : State}
    (hcalm : beginsWith isCalm l.length s.script = true) (hnodup : l.Nodup) :
    ∃ u, writeLines p l [] s = .ok [] u ∧ u.run = s.run ∧ u.script = s.script.drop l.length ∧
      ∀ i, observe u i = if i ∈ l then some (bitOf p i) else observe s i := by
  obtain ⟨out, outDefined, ws, hwrites, hout, hdefined, -⟩ := writeLines_calm p l [] s hcalm hnodup
  refine ⟨_, hwrites, rfl, rfl, fun i => ?_⟩
  simp only [observe, hout, hdefined]
  by_cases hi : i ∈ l <;> simp [hi]

/-- The state that a forced level leaves to the line operation. -/
def afterForce (line : OutLine) (b : Level) (ts : List Turn) (s : State) : State :=
  moveEffect (.forceOutput line b) (record (.env (.forceOutput line b)) { s with script := ts })

theorem observe_afterForce (line : OutLine) (b : Level) (ts : List Turn) (s : State) (i : OutLine) :
    observe (afterForce line b ts s) i = if i = line then none else observe s i := by
  simp only [observe, afterForce, moveEffect, record, bitOf_markUndefined, bitOf_setBit]
  split <;> simp

/-- A write at a turn that forces a level: the line at the level, over what the forcing left. -/
theorem outWrite_force {s : State} {t : Turn} {ts : List Turn} {line : OutLine} {b : Level} (h : s.script = t :: ts)
    (hmoves : t.moves = [.forceOutput line b]) (hok : t.ok = true) (i : OutLine) (c : Level) :
    outWrite i c s = .ok () (writeDone i c (afterForce line b ts s)) := by
  refine withRetry_ok _ ?_
  simp [attempt, nextTurn_cons h, takeTurn_cons h, hmoves, hok, hasReset, applyMoves, afterForce, writeAnswer]

/-- A DRIVE in which a level is forced before the write of one line: the lines written from then on show the pattern, and so do
those written before, but for the line forced. -/
theorem writeLines_force (p : Pattern) {s : State} {before after : List Turn} {t : Turn} {line : OutLine} {b : Level}
    {l1 l3 : List OutLine} {i : OutLine} (hs : s.script = before ++ t :: after) (hbefore : before.all isCalm = true)
    (hlength : l1.length = before.length) (hmoves : t.moves = [.forceOutput line b]) (hok : t.ok = true)
    (hafter : beginsWith isCalm l3.length after = true) (hnodup : (l1 ++ i :: l3).Nodup) :
    ∃ u, writeLines p (l1 ++ i :: l3) [] s = .ok [] u ∧ u.run = s.run ∧ ∀ j, observe u j =
      if j ∈ i :: l3 then some (bitOf p j) else if j = line then none
      else if j ∈ l1 then some (bitOf p j) else observe s j := by
  obtain ⟨hnodup1, hnodup3, -⟩ := List.nodup_append.mp hnodup
  have hcalm1 : beginsWith isCalm l1.length s.script = true := by
    rw [hlength, hs]
    exact beginsWith_of_append hbefore
  obtain ⟨u1, hwrites1, hrun1, hscript1, hobserve1⟩ := writeLines_calm_observe p hcalm1 hnodup1
  rw [hlength, hs, List.drop_left] at hscript1
  have hwrite := outWrite_force hscript1 hmoves hok i (bitOf p i)
  obtain ⟨u3, hwrites3, hrun3, -, hobserve3⟩ :=
    writeLines_calm_observe p (s := writeDone i (bitOf p i) (afterForce line b after u1)) hafter hnodup3.of_cons
  refine ⟨u3, ?_, hrun3.trans hrun1, fun j => ?_⟩
  · rw [writeLines_append _ hwrites1, writeLines_cons_ok hwrite, hwrites3]
  · rw [hobserve3, observe_writeDone, observe_afterForce, hobserve1]
    by_cases hj : j ∈ l3
    · simp [hj]
    · by_cases hi : j = i
      · simp [hi]
      · simp [hj, hi]

/-- Settles O21: each line is written once, before the forcing or from it on. -/
theorem forcedLevelLastsUntilTheWrite : Obligations.ForcedLevelLastsUntilTheWrite := by
  unfold Obligations.ForcedLevelLastsUntilTheWrite
  intro s p before after t line b h hp hs hbefore hlt hmoves hok hafter
  have hnodup : (writeOrder s).Nodup := nodup_permute _ nodup_outLines
  obtain ⟨i, hi⟩ : ∃ i, (writeOrder s)[before.length]? = some i := ⟨_, List.getElem?_eq_getElem (by simpa using hlt)⟩
  have hsplit := eq_take_append_cons_drop hi
  have hlength3 : ((writeOrder s).drop (before.length + 1)).length = 7 - before.length := by
    rw [List.length_drop, length_writeOrder]
    omega
  obtain ⟨u, hwrites, hrun, hobserve⟩ := writeLines_force p hs hbefore (length_take_of_getElem? hi) hmoves hok
    (hlength3 ▸ hafter) (hsplit ▸ hnodup)
  rw [← hsplit] at hwrites
  refine ⟨driveOp p s, exec_drive h hp, ?_, driveOp_phase p s, fun j => ?_⟩
  · rw [driveOp_of_ok hwrites, hrun, h]
  · have hshown : observe (driveOp p s) j = observe u j := by rw [driveOp_of_ok hwrites]; rfl
    have hwhere : j ∈ (writeOrder s).take before.length ∨ j ∈ i :: (writeOrder s).drop (before.length + 1) := by
      rw [← List.mem_append, ← hsplit]
      exact mem_writeOrder s j
    have hdisjoint : j ∈ (writeOrder s).take before.length → j ∉ i :: (writeOrder s).drop (before.length + 1) :=
      fun h1 h2 => List.disjoint_of_nodup_append (hsplit ▸ hnodup) h1 h2
    rw [hshown, hobserve]
    obtain hj | hj := hwhere
    · rw [if_neg (hdisjoint hj), if_pos hj]
      simp [hj]
    · have hnot : j ∉ (writeOrder s).take before.length := fun h1 => hdisjoint h1 hj
      rw [if_pos hj, if_neg fun h1 => hnot h1.2]

end Sys2Proof.Machine
end

section
/-! PROOFS. Persistent failures under `hardened` (60_exceptions.md R138 to R141, R147): the DRIVE that goes on to the other lines,
the safe-state drive and the halt with its causes. -/

namespace Sys2Proof.Machine

/-! ### One line, failing for good or succeeding -/

theorem lineTurns_ne_nil (n order : Nat) (fails : Bool) : lineTurns n order fails ≠ [] := by
  cases fails <;> simp [lineTurns]

theorem order_of_mem_lineTurns {n order : Nat} {fails : Bool} {t : Turn} (h : t ∈ lineTurns n order fails) :
    t.order = order := by
  cases fails with
  | true => rw [(List.mem_replicate.mp h).2]; rfl
  | false => rw [List.mem_singleton.mp h]; rfl

/-- The turns in which the writes of some lines fail for good and those of the others succeed. -/
def passTurns (n order : Nat) (fails : OutLine → Bool) (l : List OutLine) : List Turn :=
  l.flatMap fun i => lineTurns n order (fails i)

/-- The writes of those turns, each with its bit of the pattern. -/
def passWrites (n : Nat) (fails : OutLine → Bool) (p : OutLine → Level) (l : List OutLine) : List (Option (OutLine × Level)) :=
  l.flatMap fun i => lineWrites n (fails i) i (p i)

/-- What the lines show after them. -/
def passShows (fails : OutLine → Bool) (p : OutLine → Level) (l : List OutLine) (before : OutLine → Option Level)
    (i : OutLine) : Option Level :=
  if i ∈ l then (if fails i then none else some (p i)) else before i

theorem passShows_cons (fails : OutLine → Bool) (p : OutLine → Level) (i : OutLine) (l : List OutLine)
    (before : OutLine → Option Level) :
    passShows fails p l (Function.update before i (if fails i then none else some (p i))) =
      passShows fails p (i :: l) before := by
  funext j
  by_cases hl : j ∈ l
  · simp [passShows, hl]
  · by_cases hi : j = i
    · subst hi; simp [passShows, hl]
    · simp [passShows, hl, hi]

/-- The order of a pass over the lines is that of its turns. -/
theorem nextTurn_order_passTurns {s : State} {n order : Nat} {fails : OutLine → Bool} {l : List OutLine} {rest : List Turn}
    (hs : s.script = passTurns n order fails l ++ rest) (hl : l ≠ []) : (nextTurn s).order = order := by
  obtain ⟨i, l, rfl⟩ := List.exists_cons_of_ne_nil hl
  obtain ⟨t, ts, hts⟩ := List.exists_cons_of_ne_nil (lineTurns_ne_nil n order (fails i))
  have hcons : s.script = t :: (ts ++ passTurns n order fails l ++ rest) := by
    rw [hs, passTurns, List.flatMap_cons, hts]
    simp [passTurns]
  rw [nextTurn_cons hcons]
  exact order_of_mem_lineTurns (hts ▸ List.mem_cons_self ..)

theorem writeOrder_passTurns {s : State} {n order : Nat} {fails : OutLine → Bool} {rest : List Turn}
    (hs : s.script = passTurns n order fails (permute order outLines) ++ rest) : writeOrder s = permute order outLines := by
  have hne : permute order outLines ≠ [] := by simp [← List.length_pos_iff_ne_nil, outLines]
  rw [writeOrder, nextTurn_order_passTurns hs hne]

/-- A write with its retries at such turns (60_exceptions.md R138). -/
theorem outWrite_lineTurns {s : State} {order : Nat} {fails : Bool} {rest : List Turn}
    (hpolicy : s.params.failPolicy = .hardened) (hinf : s.params.linesInfallible = false)
    (hs : s.script = lineTurns s.params.retryMax order fails ++ rest) (i : OutLine) (b : Level) :
    ∃ u, outWrite i b s = (if fails then .failed (.outputWriteFailure i) u else .ok () u) ∧
      Wrote (lineWrites s.params.retryMax fails i b) rest
        (Function.update (observe s) i (if fails then none else some b)) s u := by
  rw [outWrite, retries_hardened hpolicy]
  cases fails with
  | true =>
    obtain ⟨u, hu, hwrote⟩ := withRetry_write_failed i b (fs := List.replicate (s.params.retryMax + 1) (plainTurn false order))
      (by simp [isFailing, plainTurn]) _ s (List.length_replicate ..) hinf hs
    rw [List.length_replicate] at hwrote
    exact ⟨u, hu, hwrote⟩
  | false => exact withRetry_write_ok i b (t := plainTurn true order) (fs := []) rfl rfl _ s (Nat.zero_le _) hinf hs

/-- A read that fails for good at such turns. -/
theorem inRead_lineTurns {s : State} {order : Nat} {rest : List Turn}
    (hpolicy : s.params.failPolicy = .hardened) (hinf : s.params.linesInfallible = false)
    (hs : s.script = lineTurns s.params.retryMax order true ++ rest) (i : InLine) :
    ∃ u, inRead i s = .failed (.inputReadFailure i) u ∧ u = { s with
      script := rest, trace := s.trace ++ List.replicate (s.params.retryMax + 1) (.read i none) } := by
  have hread := withRetry_read_failed i (fs := List.replicate (s.params.retryMax + 1) (plainTurn false order))
    (by simp [isFailing, plainTurn]) _ s (List.length_replicate ..) hinf hs
  rw [List.length_replicate] at hread
  rw [inRead, retries_hardened hpolicy]
  exact ⟨_, hread, rfl⟩

/-! ### All lines -/

theorem safeLines_cons_ok {i : OutLine} {rest : List OutLine} {s s' : State} (h : outWrite i false s = .ok () s') :
    safeLines (i :: rest) s = safeLines rest s' := by
  simp only [safeLines, h]

theorem safeLines_cons_failed {i : OutLine} {rest : List OutLine} {s s' : State} {c : Cause}
    (h : outWrite i false s = .failed c s') : safeLines (i :: rest) s = safeLines rest s' := by
  simp only [safeLines, h]

theorem wrote_nil (s : State) : Wrote [] s.script (observe s) s s where
  params := rfl
  run := rfl
  phase := rfl
  inputs := rfl
  script := rfl
  observe _ := rfl
  trace := ⟨[], by simp, rfl⟩

/-- The first line of a pass, and then the others. -/
theorem Wrote.cons_pass {fails : OutLine → Bool} {p : OutLine → Level} {i : OutLine} {l : List OutLine}
    {r rest : List Turn} {s u v : State}
    (h : Wrote (lineWrites s.params.retryMax (fails i) i (p i)) r
      (Function.update (Machine.observe s) i (if fails i then none else some (p i))) s u)
    (h' : Wrote (passWrites u.params.retryMax fails p l) rest (passShows fails p l (Machine.observe u)) u v) :
    Wrote (passWrites s.params.retryMax fails p (i :: l)) rest (passShows fails p (i :: l) (Machine.observe s)) s v := by
  rw [funext h.observe, passShows_cons, h.params] at h'
  exact h.trans h'

/-- The safe-state drive (60_exceptions.md R139, R141): every line low whose write succeeds, whichever of the others fail. -/
theorem safeLines_passTurns {order : Nat} {fails : OutLine → Bool} {rest : List Turn} : ∀ (l : List OutLine) (s : State),
    s.params.failPolicy = .hardened → s.params.linesInfallible = false →
    s.script = passTurns s.params.retryMax order fails l ++ rest →
    ∃ u, safeLines l s = .ok () u ∧
      Wrote (passWrites s.params.retryMax fails (fun _ => false) l) rest (passShows fails (fun _ => false) l (observe s)) s u
  | [], s, _, _, hs => by
    obtain rfl : s.script = rest := hs
    exact ⟨s, rfl, wrote_nil s⟩
  | i :: l, s, hpolicy, hinf, hs => by
    rw [passTurns, List.flatMap_cons, List.append_assoc] at hs
    obtain ⟨u, hwrite, hwrote⟩ := outWrite_lineTurns hpolicy hinf hs i false
    obtain ⟨v, hsafe, hrest⟩ := safeLines_passTurns (order := order) (fails := fails) (rest := rest) l u
      (hwrote.params ▸ hpolicy) (hwrote.params ▸ hinf) (by rw [hwrote.script, hwrote.params, passTurns])
    refine ⟨v, ?_, hwrote.cons_pass hrest⟩
    cases hfails : fails i with
    | true => rw [safeLines_cons_failed (by rw [hwrite, hfails]; rfl), hsafe]
    | false => rw [safeLines_cons_ok (by rw [hwrite, hfails]; rfl), hsafe]

/-- The writes of a DRIVE (60_exceptions.md R140): all lines are attempted, and those that fail for good are the causes. -/
theorem writeLines_passTurns (p : Pattern) {order : Nat} {fails : OutLine → Bool} {rest : List Turn} :
    ∀ (l : List OutLine) (causes : List Cause) (s : State),
    s.params.failPolicy = .hardened → s.params.linesInfallible = false →
    s.script = passTurns s.params.retryMax order fails l ++ rest →
    ∃ u, writeLines p l causes s = .ok (causes ++ (l.filter fails).map .outputWriteFailure) u ∧
      Wrote (passWrites s.params.retryMax fails (bitOf p) l) rest (passShows fails (bitOf p) l (observe s)) s u
  | [], causes, s, _, _, hs => by
    obtain rfl : s.script = rest := hs
    exact ⟨s, by simp [writeLines], wrote_nil s⟩
  | i :: l, causes, s, hpolicy, hinf, hs => by
    rw [passTurns, List.flatMap_cons, List.append_assoc] at hs
    obtain ⟨u, hwrite, hwrote⟩ := outWrite_lineTurns hpolicy hinf hs i (bitOf p i)
    have hnext := fun cs => writeLines_passTurns p (order := order) (fails := fails) (rest := rest) l cs u
      (hwrote.params ▸ hpolicy) (hwrote.params ▸ hinf) (by rw [hwrote.script, hwrote.params, passTurns])
    cases hfails : fails i with
    | true =>
      obtain ⟨v, hwrites, hrest⟩ := hnext (causes ++ [.outputWriteFailure i])
      refine ⟨v, ?_, hwrote.cons_pass hrest⟩
      rw [writeLines_cons_failed_hardened (by rw [hwrite, hfails]; rfl) (hwrote.params ▸ hpolicy), hwrites]
      simp [hfails]
    | false =>
      obtain ⟨v, hwrites, hrest⟩ := hnext causes
      refine ⟨v, ?_, hwrote.cons_pass hrest⟩
      rw [writeLines_cons_ok (by rw [hwrite, hfails]; rfl), hwrites]
      simp [hfails]

/-- Taking a persistent failure: the safe-state drive, and the halt with the causes it was given. -/
theorem takeFailure_passTurns {s : State} {order : Nat} {fails : OutLine → Bool} {rest : List Turn}
    (hpolicy : s.params.failPolicy = .hardened) (hinf : s.params.linesInfallible = false)
    (hs : s.script = passTurns s.params.retryMax order fails (permute order outLines) ++ rest) (c : Cause) (later : List Cause) :
    ∃ u, takeFailure c later s = haltWith c later u ∧
      Wrote (passWrites s.params.retryMax fails (fun _ => false) (permute order outLines)) rest
        (fun i => if fails i then none else some false) s u := by
  obtain ⟨u, hsafe, hwrote⟩ := safeLines_passTurns _ s hpolicy hinf hs
  have hshows : passShows fails (fun _ => false) (permute order outLines) (observe s) =
      fun i => if fails i then none else some false := by
    funext i
    simp [passShows, mem_outLines]
  refine ⟨u, ?_, hshows ▸ hwrote⟩
  simp only [takeFailure, hpolicy, haltSafe, writeOrder_passTurns hs, hsafe]

/-! ### The halts -/

/-- Settles O25: after the failed read come the safe-state drive and the halt. -/
theorem persistentReadFailureDrivesTheSafeState : Obligations.PersistentReadFailureDrivesTheSafeState := by
  unfold Obligations.PersistentReadFailureDrivesTheSafeState
  intro s before rest order safeOrder fails line h hpolicy hinf hs hbefore hline
  rw [List.append_assoc, List.append_assoc] at hs
  obtain ⟨acc, hreads⟩ := readLines_after_quiet hs hbefore hline
  obtain ⟨s1, hfailed, hs1⟩ := inRead_lineTurns (s := afterReads s before.length (lineTurns s.params.retryMax order true ++
    (passTurns s.params.retryMax safeOrder fails (permute safeOrder outLines) ++ rest))) hpolicy hinf rfl line
  have hparams : s1.params = s.params := by rw [hs1]; rfl
  obtain ⟨u, hhalt, hwrote⟩ := takeFailure_passTurns (s := s1) (order := safeOrder) (fails := fails) (rest := rest)
    (hparams ▸ hpolicy) (hparams ▸ hinf) (by rw [hparams, hs1]) (.inputReadFailure line) []
  refine ⟨haltWith (.inputReadFailure line) [] u, ?halt, rfl, rfl, hwrote.params.trans hparams, ?inputs, hwrote.script,
    hwrote.observe, ?trace⟩
  case halt => rw [exec_sample h, sampleOp_of_failed (hreads.trans (readLines_cons_failed hfailed)), hhalt]
  case inputs => rw [haltWith_inputs, hwrote.inputs, hs1]; rfl
  case trace =>
    obtain ⟨ws, htrace, hwritten⟩ := hwrote.trace
    exact ⟨ws, by rw [haltWith_trace, htrace, hs1]; rfl, by rw [hwritten, hparams]; rfl⟩

/-- Settles O26: the causes are those of the writes, and the safe-state drive adds none. -/
theorem persistentWriteFailuresAreAllRecorded : Obligations.PersistentWriteFailuresAreAllRecorded := by
  unfold Obligations.PersistentWriteFailuresAreAllRecorded
  intro s p rest order safeOrder fails safeFails h hp hpolicy hinf hs ⟨i, hi⟩
  rw [List.append_assoc] at hs
  obtain ⟨u, hwrites, hwrote⟩ := writeLines_passTurns p _ [] s hpolicy hinf hs
  rw [← writeOrder_passTurns hs, List.nil_append] at hwrites
  have hmem : i ∈ (writeOrder s).filter fails := List.mem_filter.mpr ⟨mem_writeOrder s i, hi⟩
  obtain ⟨first, later, hcauses⟩ : ∃ first later,
      first :: later = ((writeOrder s).filter fails).map Cause.outputWriteFailure :=
    (List.exists_cons_of_ne_nil (by simpa using List.ne_nil_of_mem hmem)).imp fun _ => .imp fun _ => Eq.symm
  rw [← hcauses] at hwrites
  obtain ⟨v, hhalt, hsafe⟩ := takeFailure_passTurns (order := safeOrder) (fails := safeFails) (rest := rest)
    (hwrote.params ▸ hpolicy) (hwrote.params ▸ hinf) (by rw [hwrote.script, hwrote.params]; rfl) first later
  have hall := hwrote.trans (hwrote.params ▸ hsafe)
  refine ⟨haltWith first later v, first, later, ?_, rfl, writeOrder_passTurns hs ▸ hcauses, rfl, hall.params, hall.inputs,
    hall.script, hall.observe, hall.trace⟩
  rw [exec_drive h hp, driveOp_of_causes hwrites, hhalt]

end Sys2Proof.Machine
end
